-- ==== Sys2Proof/Word.lean ====
section
/-! DEFINITION. The word types of QRECE: an 8-bit codeword or field element (rule R6) and the 32-bit
command word and response datum (rules R80 and R95). -/

namespace Sys2Proof

/-- A codeword, a `GEN`/`REM` entry or an element of GF(256): 8 bits (rules R6, R21 to R23). -/
abbrev Byte := BitVec 8

/-- A command word or a response datum: 32 bits (rules R80, R95). -/
abbrev Word := BitVec 32

end Sys2Proof
end

