-- ==== Sys2Proof/Syntax.lean ====
section
/-! DEFINITION. The 27 commands of rule R91, one constructor per row of `spec/opcode_table.json`.

Operands that are data bits are bit vectors of the width their field has (field elements and codewords are
bytes, a `CW` address is 12 bits, a module value is one bit). Operands that the rules compare and count with
(CSR numbers and values, exponents, positions, counts, levels, versions, coordinates) are natural numbers:
"every operand is the unsigned integer of its field, used as it is" (rule R90). That such a number fits its
field is the check of `WellFormed.lean` (rule R96). -/

namespace Sys2Proof

/-- A `CW` address: 12 bits (rule R60). -/
abbrev CwAddr := BitVec 12

/-- The command set, in the order of rule R91. -/
inductive Instr where
  /-- `NOP` (rule R220). -/
  | nop
  /-- `SRST` (rule R221). -/
  | srst
  /-- `ERRCLR` (rule R222). -/
  | errclr
  /-- `CSRRD n` (rule R223). -/
  | csrrd (n : Nat)
  /-- `CSRWR n, v` (rule R224). -/
  | csrwr (n v : Nat)
  /-- `GFEXP e` (rule R104). -/
  | gfexp (e : Nat)
  /-- `GFLOG a` (rule R105). -/
  | gflog (a : Byte)
  /-- `GFMUL a, b` (rule R106). -/
  | gfmul (a b : Byte)
  /-- `GFMAC a, b` (rule R107). -/
  | gfmac (a b : Byte)
  /-- `RSINIT n` (rule R121). -/
  | rsinit (n : Nat)
  /-- `GENWR pos, val` (rule R122). -/
  | genwr (pos : Nat) (val : Byte)
  /-- `GENRD pos` (rule R123). -/
  | genrd (pos : Nat)
  /-- `GENSTD` (rule R125). -/
  | genstd
  /-- `RSBYTE d` (rule R126). -/
  | rsbyte (d : Byte)
  /-- `RSRD pos` (rule R129). -/
  | rsrd (pos : Nat)
  /-- `RSRUN start, count` (rule R127). -/
  | rsrun (start : CwAddr) (count : Nat)
  /-- `RSST dst` (rule R128). -/
  | rsst (dst : CwAddr)
  /-- `FMTENC ec, mask` (rule R153). -/
  | fmtenc (ec mask : Nat)
  /-- `VERENC ver` (rule R154). -/
  | verenc (ver : Nat)
  /-- `CWWR a, d` (rule R170). -/
  | cwwr (a : CwAddr) (d : Byte)
  /-- `CWRD a` (rule R171). -/
  | cwrd (a : CwAddr)
  /-- `MODWR x, y, v` (rule R172). -/
  | modwr (x y : Nat) (v : Bool)
  /-- `MODRD x, y` (rule R173). -/
  | modrd (x y : Nat)
  /-- `RSVQ x, y` (rule R185). -/
  | rsvq (x y : Nat)
  /-- `MASKQ x, y` (rule R186). -/
  | maskq (x y : Nat)
  /-- `RSVCNT` (rule R187). -/
  | rsvcnt
  /-- `PLACE` (rule R188). -/
  | place
  deriving DecidableEq, Repr

end Sys2Proof
end

