-- ==== Sys2Proof/WellFormed.lean ====
section
/-! DEFINITION. Which commands can be put into a word: every operand fits its field (rules R83 to R89; rule
R96: "an operand that does not fit its field is an assembly error, while an operand that fits the field but
is illegal for the command ... assembles and faults when executed"). -/

namespace Sys2Proof

/-- `n` fits a field of `width` bits. -/
def fitsField (width n : Nat) : Bool := decide (n < 2 ^ width)

/-- Every number of the command fits its field. Operands held as bit vectors fit by their type. -/
def Instr.wellFormed : Instr → Bool
  | .nop | .srst | .errclr | .genstd | .rsvcnt | .place => true
  | .csrrd n => fitsField 8 n
  | .csrwr n v => fitsField 8 n && fitsField 16 v
  | .gfexp e => fitsField 8 e
  | .gflog _ | .gfmul _ _ | .gfmac _ _ | .rsbyte _ => true
  | .rsinit n => fitsField 8 n
  | .genwr pos _ => fitsField 8 pos
  | .genrd pos => fitsField 8 pos
  | .rsrd pos => fitsField 8 pos
  | .rsrun _ count => fitsField 12 count
  | .rsst _ | .cwwr _ _ | .cwrd _ => true
  | .fmtenc ec mask => fitsField 8 ec && fitsField 8 mask
  | .verenc ver => fitsField 8 ver
  | .modwr x y _ => fitsField 8 x && fitsField 8 y
  | .modrd x y => fitsField 8 x && fitsField 8 y
  | .rsvq x y => fitsField 8 x && fitsField 8 y
  | .maskq x y => fitsField 8 x && fitsField 8 y

end Sys2Proof
end

