-- ==== Sys2Proof/Decode.lean ====
section
/-! DEFINITION. Decoding a command word (rules R80 to R94), total on all 2^32 words; the opcode table of rule R91 as
data; and the encoder written from the same formats. `none` is an illegal encoding (rule R92): QRECE answers it
with `ILLEGAL_CMD`, so it is no refusal of the model. -/

namespace Sys2Proof

/-- `w[hi:lo]`: the unsigned number made of bits `hi` down to `lo` of `w`, both included (rule R8). -/
def bits (w hi lo : Nat) : Nat := w / 2 ^ lo % 2 ^ (hi + 1 - lo)

/-- `w[31:24]`, the opcode (rule R81). -/
def opcodeOf (w : Word) : Nat := bits w.toNat 31 24

/-- The command if the bits its format wants to be 0 are 0; otherwise the word is illegal (rules R81, R92). -/
def ifZero (mustBeZero : Nat) (i : Instr) : Option Instr := if mustBeZero = 0 then some i else none

/-- The byte in bits `hi` down to `hi - 7`. -/
def byteAt (w hi : Nat) : Byte := BitVec.ofNat 8 (bits w hi (hi - 7))

/-- The 12-bit `CW` address of formats A and AA: `w[23:12]` (rules R87, R88). -/
def addrField (w : Nat) : CwAddr := BitVec.ofNat 12 (bits w 23 12)

/-- The command with opcode `op` whose word is `w` (rules R83 to R89): the must-be-zero bits of its format are
checked, then the operands are cut out. An opcode that is not assigned has no command. -/
def decodeFields (op w : Nat) : Option Instr :=
  match op with
  -- format Z (rule R83), C (R86)
  | 0x00 => ifZero (bits w 23 0) .nop
  | 0x01 => ifZero (bits w 23 0) .srst
  | 0x02 => ifZero (bits w 23 0) .errclr
  | 0x08 => ifZero (bits w 15 0) (.csrrd (bits w 23 16))
  | 0x09 => some (.csrwr (bits w 23 16) (bits w 15 0))
  -- format B (R84) and BB (R85): GF(256)
  | 0x10 => ifZero (bits w 23 8) (.gfexp (bits w 7 0))
  | 0x11 => ifZero (bits w 23 8) (.gflog (byteAt w 7))
  | 0x12 => ifZero (bits w 23 16) (.gfmul (byteAt w 15) (byteAt w 7))
  | 0x13 => ifZero (bits w 23 16) (.gfmac (byteAt w 15) (byteAt w 7))
  -- B, BB, Z, AA (R88), A (R87): Reed-Solomon
  | 0x20 => ifZero (bits w 23 8) (.rsinit (bits w 7 0))
  | 0x21 => ifZero (bits w 23 16) (.genwr (bits w 15 8) (byteAt w 7))
  | 0x22 => ifZero (bits w 23 8) (.genrd (bits w 7 0))
  | 0x23 => ifZero (bits w 23 0) .genstd
  | 0x24 => ifZero (bits w 23 8) (.rsbyte (byteAt w 7))
  | 0x25 => ifZero (bits w 23 8) (.rsrd (bits w 7 0))
  | 0x26 => some (.rsrun (addrField w) (bits w 11 0))
  | 0x27 => ifZero (bits w 11 0) (.rsst (addrField w))
  -- BB, B: BCH
  | 0x30 => ifZero (bits w 23 16) (.fmtenc (bits w 15 8) (bits w 7 0))
  | 0x31 => ifZero (bits w 23 8) (.verenc (bits w 7 0))
  -- A, XY (R89): memory access
  | 0x40 => ifZero (bits w 11 8) (.cwwr (addrField w) (byteAt w 7))
  | 0x41 => ifZero (bits w 11 0) (.cwrd (addrField w))
  | 0x42 => ifZero (bits w 7 1) (.modwr (bits w 23 16) (bits w 15 8) (decide (bits w 0 0 = 1)))
  | 0x43 => ifZero (bits w 7 0) (.modrd (bits w 23 16) (bits w 15 8))
  -- XY, Z: placement
  | 0x50 => ifZero (bits w 7 0) (.rsvq (bits w 23 16) (bits w 15 8))
  | 0x51 => ifZero (bits w 7 0) (.maskq (bits w 23 16) (bits w 15 8))
  | 0x52 => ifZero (bits w 23 0) .rsvcnt
  | 0x53 => ifZero (bits w 23 0) .place
  | _ => none

/-- Steps (1), (3) and (4) of the decoding procedure of rule R94. (Step (2), the lock, is `Machine/Port.lean`.) -/
def decode (w : Word) : Option Instr := decodeFields (opcodeOf w) w.toNat

/-- The opcode column of rule R91. -/
def Instr.opcode : Instr → Nat
  | .nop => 0x00
  | .srst => 0x01
  | .errclr => 0x02
  | .csrrd _ => 0x08
  | .csrwr _ _ => 0x09
  | .gfexp _ => 0x10
  | .gflog _ => 0x11
  | .gfmul _ _ => 0x12
  | .gfmac _ _ => 0x13
  | .rsinit _ => 0x20
  | .genwr _ _ => 0x21
  | .genrd _ => 0x22
  | .genstd => 0x23
  | .rsbyte _ => 0x24
  | .rsrd _ => 0x25
  | .rsrun _ _ => 0x26
  | .rsst _ => 0x27
  | .fmtenc _ _ => 0x30
  | .verenc _ => 0x31
  | .cwwr _ _ => 0x40
  | .cwrd _ => 0x41
  | .modwr _ _ _ => 0x42
  | .modrd _ _ => 0x43
  | .rsvq _ _ => 0x50
  | .maskq _ _ => 0x51
  | .rsvcnt => 0x52
  | .place => 0x53

/-- Format B: one operand in `w[7:0]` (rule R84). -/
def formatB (b : Nat) : Nat := b

/-- Format BB: `a` in `w[15:8]`, `b` in `w[7:0]` (rule R85). -/
def formatBB (a b : Nat) : Nat := a * 2 ^ 8 + b

/-- Format C: CSR number in `w[23:16]`, value in `w[15:0]` (rule R86). -/
def formatC (n v : Nat) : Nat := n * 2 ^ 16 + v

/-- Format A: address in `w[23:12]`, data in `w[7:0]` (rule R87). -/
def formatA (a : CwAddr) (d : Nat) : Nat := a.toNat * 2 ^ 12 + d

/-- Format AA: start address in `w[23:12]`, count in `w[11:0]` (rule R88). -/
def formatAA (s : CwAddr) (c : Nat) : Nat := s.toNat * 2 ^ 12 + c

/-- Format XY: column in `w[23:16]`, row in `w[15:8]`, module value in `w[0]` (rule R89). -/
def formatXY (x y v : Nat) : Nat := x * 2 ^ 16 + y * 2 ^ 8 + v

/-- The operand part `w[23:0]` of a command's word (rules R83 to R89). -/
def Instr.operandBits : Instr → Nat
  | .nop | .srst | .errclr | .genstd | .rsvcnt | .place => 0
  | .csrrd n => formatC n 0
  | .csrwr n v => formatC n v
  | .gfexp e => formatB e
  | .gflog a => formatB a.toNat
  | .gfmul a b => formatBB a.toNat b.toNat
  | .gfmac a b => formatBB a.toNat b.toNat
  | .rsinit n => formatB n
  | .genwr pos val => formatBB pos val.toNat
  | .genrd pos => formatB pos
  | .rsbyte d => formatB d.toNat
  | .rsrd pos => formatB pos
  | .rsrun start count => formatAA start count
  | .rsst dst => formatA dst 0
  | .fmtenc ec mask => formatBB ec mask
  | .verenc ver => formatB ver
  | .cwwr a d => formatA a d.toNat
  | .cwrd a => formatA a 0
  | .modwr x y v => formatXY x y v.toNat
  | .modrd x y => formatXY x y 0
  | .rsvq x y => formatXY x y 0
  | .maskq x y => formatXY x y 0

/-- The word of a well-formed command: "placing each operand in its field ... and the opcode in `w[31:24]`"
(rule R96). -/
def encode (i : Instr) : Word := BitVec.ofNat 32 (i.opcode * 2 ^ 24 + i.operandBits)

/-- One row of rule R91: the word is this command exactly when `w and mask = match`. -/
structure TableRow where
  mnemonic : String
  mtch : Word
  mask : Word
  deriving DecidableEq, Repr

/-- The table of rule R91, first half: system, GF(256) and Reed-Solomon. -/
def opcodeTableLow : List TableRow :=
  [⟨"NOP", 0x00000000, 0xFFFFFFFF⟩, ⟨"SRST", 0x01000000, 0xFFFFFFFF⟩, ⟨"ERRCLR", 0x02000000, 0xFFFFFFFF⟩,
   ⟨"CSRRD", 0x08000000, 0xFF00FFFF⟩, ⟨"CSRWR", 0x09000000, 0xFF000000⟩,
   ⟨"GFEXP", 0x10000000, 0xFFFFFF00⟩, ⟨"GFLOG", 0x11000000, 0xFFFFFF00⟩,
   ⟨"GFMUL", 0x12000000, 0xFFFF0000⟩, ⟨"GFMAC", 0x13000000, 0xFFFF0000⟩,
   ⟨"RSINIT", 0x20000000, 0xFFFFFF00⟩, ⟨"GENWR", 0x21000000, 0xFFFF0000⟩, ⟨"GENRD", 0x22000000, 0xFFFFFF00⟩,
   ⟨"GENSTD", 0x23000000, 0xFFFFFFFF⟩, ⟨"RSBYTE", 0x24000000, 0xFFFFFF00⟩, ⟨"RSRD", 0x25000000, 0xFFFFFF00⟩,
   ⟨"RSRUN", 0x26000000, 0xFF000000⟩, ⟨"RSST", 0x27000000, 0xFF000FFF⟩]

/-- The table of rule R91, second half: BCH, memory access and placement. -/
def opcodeTableHigh : List TableRow :=
  [⟨"FMTENC", 0x30000000, 0xFFFF0000⟩, ⟨"VERENC", 0x31000000, 0xFFFFFF00⟩,
   ⟨"CWWR", 0x40000000, 0xFF000F00⟩, ⟨"CWRD", 0x41000000, 0xFF000FFF⟩,
   ⟨"MODWR", 0x42000000, 0xFF0000FE⟩, ⟨"MODRD", 0x43000000, 0xFF0000FF⟩,
   ⟨"RSVQ", 0x50000000, 0xFF0000FF⟩, ⟨"MASKQ", 0x51000000, 0xFF0000FF⟩,
   ⟨"RSVCNT", 0x52000000, 0xFFFFFFFF⟩, ⟨"PLACE", 0x53000000, 0xFFFFFFFF⟩]

/-- The 27 rows of rule R91. -/
def opcodeTable : List TableRow := opcodeTableLow ++ opcodeTableHigh

/-- The word is the row's command (rule R91). -/
def TableRow.selects (r : TableRow) (w : Word) : Bool := w &&& r.mask == r.mtch

/-- The mnemonic column of rule R91. -/
def Instr.mnemonic : Instr → String
  | .nop => "NOP"
  | .srst => "SRST"
  | .errclr => "ERRCLR"
  | .csrrd _ => "CSRRD"
  | .csrwr _ _ => "CSRWR"
  | .gfexp _ => "GFEXP"
  | .gflog _ => "GFLOG"
  | .gfmul _ _ => "GFMUL"
  | .gfmac _ _ => "GFMAC"
  | .rsinit _ => "RSINIT"
  | .genwr _ _ => "GENWR"
  | .genrd _ => "GENRD"
  | .genstd => "GENSTD"
  | .rsbyte _ => "RSBYTE"
  | .rsrd _ => "RSRD"
  | .rsrun _ _ => "RSRUN"
  | .rsst _ => "RSST"
  | .fmtenc _ _ => "FMTENC"
  | .verenc _ => "VERENC"
  | .cwwr _ _ => "CWWR"
  | .cwrd _ => "CWRD"
  | .modwr _ _ _ => "MODWR"
  | .modrd _ _ => "MODRD"
  | .rsvq _ _ => "RSVQ"
  | .maskq _ _ => "MASKQ"
  | .rsvcnt => "RSVCNT"
  | .place => "PLACE"

/-- The instruction the decoder reads from the low `nbits` bits of `w`, every bit above them being 0. A QRECE
command is one 32-bit number, not a string of bytes (rules R80, R63), so the numbering of the opcode table is the
word's own. -/
def decodeTableWord (nbits w : Nat) : Option Instr :=
  if w % 2 ^ nbits < 2 ^ 32 then decode (BitVec.ofNat 32 (w % 2 ^ nbits)) else none

end Sys2Proof
end

