-- ==== Sys2Proof/Config.lean ====
section
/-! DEFINITION. What is fixed for one QRECE instance: the capacities of rule R7, and the free values of
rule R71 (what a memory cell holds that nothing has written since hardware reset). Last, what rule R241 leaves open on
the host's side. -/

namespace Sys2Proof.Config

/-- `ECMAX`: entries of `GEN` and of `REM`, and the largest legal `ECN` (rule R7, decision D5). -/
abbrev ecMax : Nat := 30

/-- `CWMAX`: bytes of codeword memory (rule R7, decision D5). -/
abbrev cwMax : Nat := 4096

/-- `MMAX`: side of the module memory (rule R7, decision D5). -/
abbrev mMax : Nat := 177

/-- `ALNMAX`: number of alignment coordinate registers (rule R7, decision D5). -/
abbrev alnMax : Nat := 7

/-- FREE VALUE (rule R71, U1; log entry 3): the byte that draw number `draw` finds at address `a` of `CW`
when no command has written that byte since the last hardware reset. It has no body, so nothing can be
proved about a particular value of it. -/
opaque unwrittenCw (draw a : Nat) : Byte

/-- FREE VALUE (rule R71, U1; log entry 3): the module that draw number `draw` finds at `MOD[y][x]` when no
command has written that cell since the last hardware reset. -/
opaque unwrittenMod (draw x y : Nat) : Bool

/-! ## The host's side (rule R241); nothing in the machine uses these. -/

/-- "The modes are {Numeric, Alphanumeric, Byte}" (rule R241). -/
inductive Mode where
  | numeric | alphanumeric | byte
  deriving DecidableEq, Repr, Inhabited

/-- FREE VALUE (log entry 9): the mode of the empty payload, which "the source does not say" (rule R241). -/
opaque emptyPayloadMode : Mode

/-- FREE VALUE (log entry 16): whether a requested mode that can represent the payload goes before auto-detection.
"The source does not say what the precedence is" there (rule R241). -/
opaque requestGoesFirst (requested : Mode) (payload : List Char) : Bool

end Sys2Proof.Config
end

