-- ==== Sys2Proof/Machine/State.lean ====
section
/-! DEFINITION. The state of one QRECE instance: the registers and memories of rule R20 and nothing else of the
block's own, and beside them what makes the host's side of the command port plain data (what the host has still to
present, what it has been answered, the word being executed) and the counter that numbers free draws. -/

namespace Sys2Proof.Machine

/-- The causes a command can raise (rule R271; `LOCKED` and `OK` are not raised). -/
inductive Cause where
  /-- The word matches no row of rule R91. -/
  | illegalCmd
  /-- CSR number not implemented, or `CSRWR` to a read-only CSR. -/
  | illegalCsr
  /-- An operand or a written CSR value is outside the legal set of values. -/
  | illegalValue
  /-- An index, address run or coordinate falls outside its space. -/
  | range
  /-- A Reed-Solomon command was issued while `ECN = 0`. -/
  | notConfigured
  /-- `8·NCW` does not agree with the number of non-reserved modules. -/
  | placeMismatch
  deriving DecidableEq, Repr

/-- `rsp_status`: the eight values of rule R271. -/
inductive Status where
  /-- The command was carried out. -/
  | ok
  /-- The command raised `cause`. -/
  | error (cause : Cause)
  /-- The block is FAULTED and the opcode is not exempt. -/
  | locked
  deriving DecidableEq, Repr

/-- One response: the status and the 32-bit datum (rule R95). -/
structure Response where
  status : Status
  data : Word
  deriving DecidableEq, Repr

/-- What the host can do to the block (rule R311): present a command word, or assert `rst_n` (rule R300), between
commands or while the word it has presented is being executed (rule R304). -/
inductive HostInput where
  /-- The host presents the command word `w`. -/
  | command (w : Word)
  /-- The host asserts and releases `rst_n` between two commands. -/
  | hardReset
  /-- The host presents `w` and asserts `rst_n` before the response: the command is abandoned. -/
  | commandCutByReset (w : Word)
  deriving DecidableEq, Repr

/-- The registers of rule R20, each with the width its rule gives it. -/
structure Regs where
  /-- `ACC`, the GF(256) accumulator (rules R21, R38). -/
  acc : Byte
  /-- `GEN[0..29]`, the generator coefficients (rule R22). -/
  gen : Vector Byte Config.ecMax
  /-- `REM[0..29]`, the Reed-Solomon remainder register (rule R23). -/
  rem : Vector Byte Config.ecMax
  /-- `ECN`, the EC codeword count in use (rules R24, R39). -/
  ecn : BitVec 5
  /-- `FMT`, the last format information computed (rule R40). -/
  fmt : BitVec 15
  /-- `VINFO`, the last version information computed (rule R41). -/
  vinfo : BitVec 18
  /-- `VER`, the symbol version (rule R42). -/
  ver : BitVec 6
  /-- `MASK`, the mask id (rule R44). -/
  mask : BitVec 3
  /-- `NCW`, the number of codewords `PLACE` consumes (rule R45). -/
  ncw : BitVec 13
  /-- `BITCNT`, the bits consumed by the last successful `PLACE` (rule R46). -/
  bitcnt : BitVec 16
  /-- `CTRL`: bit 0 `IEN`, bit 1 `REMOK` (rule R37). -/
  ctrl : BitVec 2
  /-- `ALNCNT`, the number of alignment coordinates in use (rules R25, R47). -/
  alncnt : BitVec 3
  /-- `ALN[0..6]`, the alignment-pattern centre coordinates (rules R25, R48). -/
  aln : Vector Byte Config.alnMax
  /-- `ERR`, the status code of the first error since the last clear (rule R35). -/
  err : Byte
  /-- `ERRCMD`, the command word that set `ERR` (rule R36). -/
  errcmd : Word
  deriving DecidableEq, Repr

/-- The values of rule R300: every register 0, except `VER = 1`. -/
def Regs.reset : Regs where
  acc := 0
  gen := Vector.replicate Config.ecMax 0
  rem := Vector.replicate Config.ecMax 0
  ecn := 0
  fmt := 0
  vinfo := 0
  ver := 1
  mask := 0
  ncw := 0
  bitcnt := 0
  ctrl := 0
  alncnt := 0
  aln := Vector.replicate Config.alnMax 0
  err := 0
  errcmd := 0

/-- The whole machine. -/
structure State where
  /-- The registers of rule R20. -/
  regs : Regs
  /-- `CW`, the codeword memory (rule R28): the bytes written since hardware reset, by rising address. An address
  that is not listed has not been written and has no specified value (rule R71). -/
  cw : List Host.Cell
  /-- `MOD`, the module memory (rule R29): the modules written since hardware reset, by rising cell number
  (`Memory.cellNumber`). A cell that is not listed has not been written (rule R71). -/
  mod : List (Nat × Bool)
  /-- The command word being executed, as taken from the port `cmd_word` (rule R310): the `w` of rule R274. -/
  cmdWord : Word
  /-- What the host has still to present to the block, next first (rule R311). -/
  pending : List HostInput
  /-- The responses the block has produced, first first (rules R95, R66 (c)). -/
  responses : List Response
  /-- The MODEL's own counter: how many commands have read a memory. It numbers the free draws of rule R71. -/
  draws : Nat
  deriving DecidableEq, Repr

/-- The block right after hardware reset (rule R300), with nothing presented and nothing answered: every register
at its reset value, no byte of `CW` and no bit of `MOD` written. -/
def State.reset : State where
  regs := Regs.reset
  cw := []
  mod := []
  cmdWord := 0
  pending := []
  responses := []
  draws := 0

/-- Why the machine could stop. It has no constructor: no word and no state stops QRECE. Every command error is a
status in a response after which the block goes on (rule R274), "every sequence of 32-bit words has exactly one
defined outcome" (rule R308) and there is "no state in which QRECE refuses every word" (rule R311). Nothing
raises it (safe: there is nothing a claim could lean on). -/
inductive Fault where
  deriving DecidableEq, Repr

/-- Why the model could have no meaning for a command. -/
inductive Refusal where
  /-- Raised by `exec`'s arm of a command that has no meaning yet, under its mnemonic; no arm raises it now
  (safe: a refused command gives no next state to prove anything of). -/
  | notModelled (mnemonic : String)
  deriving DecidableEq, Repr

/-- What a command ends in. -/
abbrev Result := Host.Outcome State Fault Refusal

end Sys2Proof.Machine
end

