-- ==== Sys2Proof/Machine/Ops.lean ====
section
/-! DEFINITION. The shared operations: the two memories, the register files, answering a command, raising an error
(rule R274, QRECE's only exception) and the three ways back to RUN (rule R276). -/

namespace Sys2Proof.Machine

/-! ## Memories: a list of (number, content), by rising number, of the cells written since hardware reset. -/

namespace Memory

variable {α : Type}

/-- What cell `a` holds, `none` if nothing has written it since hardware reset (rule R71). -/
def read : List (Nat × α) → Nat → Option α
  | [], _ => none
  | (b, v) :: rest, a => if a = b then some v else if a < b then none else read rest a

/-- Cell `a` now holds `v` and every other cell holds what it held. -/
def write : List (Nat × α) → Nat → α → List (Nat × α)
  | [], a, v => [(a, v)]
  | (b, u) :: rest, a, v =>
    if a < b then (a, v) :: (b, u) :: rest
    else if a = b then (a, v) :: rest
    else (b, u) :: write rest a v

/-- Consecutive cells from `a` on, the first value in the lowest cell. -/
def writeRun : List (Nat × α) → Nat → List α → List (Nat × α)
  | m, _, [] => m
  | m, a, v :: vs => writeRun (write m a v) (a + 1) vs

/-- The numbers rise from `lo` on and stay below `size`. -/
def risingFrom (size : Nat) : Nat → List (Nat × α) → Bool
  | _, [] => true
  | lo, (a, _) :: rest => decide (lo ≤ a) && decide (a < size) && risingFrom size (a + 1) rest

/-- The canonical form of a memory of `size` cells: strictly rising numbers, all below `size`. An unlisted cell
reads as "not written", which no listed cell does, so equal memories are equal lists. -/
def wf (size : Nat) (m : List (Nat × α)) : Bool := risingFrom size 0 m

/-- The number of the module memory's cell `MOD[y][x]`: row by row (log entry 4). -/
def cellNumber (x y : Nat) : Nat := y * Config.mMax + x

end Memory

/-- The number of cells of `MOD`: `MMAX × MMAX` (rule R29). -/
def modCells : Nat := Config.mMax * Config.mMax

/-- The byte `CW[a]`: what was last written there, or the free value of the present draw (rule R71). -/
def State.cwByte (s : State) (a : Nat) : Byte := (Memory.read s.cw a).getD (Config.unwrittenCw s.draws a)

/-- The module `MOD[y][x]`: what was last written there, or the free value of the present draw (rule R71). -/
def State.modBit (s : State) (x y : Nat) : Bool :=
  (Memory.read s.mod (Memory.cellNumber x y)).getD (Config.unwrittenMod s.draws x y)

/-- The next command that reads a memory finds fresh free values: two reads of a cell that nothing has written
need not agree (rule R71). -/
def State.drawn (s : State) : State := { s with draws := s.draws + 1 }

/-- `CW[a] <- d`. -/
def State.setCwByte (s : State) (a : Nat) (d : Byte) : State := { s with cw := Memory.write s.cw a d }

/-- `CW[a], CW[a+1], ... <- ds`. -/
def State.setCwRun (s : State) (a : Nat) (ds : List Byte) : State := { s with cw := Memory.writeRun s.cw a ds }

/-- `MOD[y][x] <- b`. -/
def State.setModBit (s : State) (x y : Nat) (b : Bool) : State :=
  { s with mod := Memory.write s.mod (Memory.cellNumber x y) b }

/-- The registers become `r`. -/
def State.setRegs (s : State) (r : Regs) : State := { s with regs := r }

/-! ## Register files -/

/-- Entry `i` of a register file; the rules ask only for entries it has. -/
def entry {n : Nat} (file : Vector Byte n) (i : Nat) : Byte := file.getD i 0

/-- The register file with entry `i` replaced. -/
def setEntry {n : Nat} (file : Vector Byte n) (i : Nat) (v : Byte) : Vector Byte n := file.setIfInBounds i v

/-- Entries `0` to `count - 1` of a register file. -/
def entriesBelow {n : Nat} (file : Vector Byte n) (count : Nat) : List Byte := (List.range count).map (entry file)

/-! ## Answering a command (rules R10, R95) -/

/-- One more response. -/
def State.answer (s : State) (status : Status) (data : Word) : State :=
  { s with responses := s.responses ++ [⟨status, data⟩] }

/-- `respond(d)` of rule R10: the command ends with status `OK` and data `d`. -/
def respond (d : Word) (s : State) : Result := .next (s.answer .ok d)

/-- The end of a command that has no result: status `OK`, data 0 (rule R10). -/
def done (s : State) : Result := respond 0 s

/-! ## Errors (rules R271, R274, R275) and the ways out of FAULTED (rule R276) -/

/-- The code of a cause (rule R271). -/
def Cause.code : Cause → Byte
  | .illegalCmd => 0x01
  | .illegalCsr => 0x02
  | .illegalValue => 0x03
  | .range => 0x04
  | .notConfigured => 0x05
  | .placeMismatch => 0x06

/-- `rsp_status` as a number (rule R271). -/
def Status.code : Status → Byte
  | .ok => 0x00
  | .error c => c.code
  | .locked => 0x07

/-- FAULTED: `ERR ≠ 0` (rules R27, R282). -/
def Regs.faulted (r : Regs) : Bool := r.err != 0

/-- The error registers after a command with word `w` has raised `c`: only the first error is recorded
(rules R274, R277). -/
def Regs.recordError (r : Regs) (c : Cause) (w : Word) : Regs :=
  if r.faulted then r else { r with err := c.code, errcmd := w }

/-- `raise c` (rules R10, R274): the command whose word is being executed ends with `c`, data 0, and no change to
any state but the error registers. -/
def raise (c : Cause) (s : State) : Result :=
  .next ((s.setRegs (s.regs.recordError c s.cmdWord)).answer (.error c) 0)

/-- The answer of the FAULTED lock (rule R275): `LOCKED`, and no change to any state. -/
def lockedOut (s : State) : Result := .next (s.answer .locked 0)

/-- `ERR` and `ERRCMD` cleared: what `ERRCLR` does, the return from FAULTED to RUN (rules R222, R276). -/
def Regs.clearError (r : Regs) : Regs := { r with err := 0, errcmd := 0 }

/-- Soft reset: every register at its reset value, the memories unchanged (rules R221, R301). -/
def State.softReset (s : State) : State := s.setRegs Regs.reset

/-- Hardware reset: every register at its reset value and both memories unspecified (rules R300, R301, R304). It
produces no response. -/
def State.hardReset (s : State) : State := { s with regs := Regs.reset, cw := [], mod := [], cmdWord := 0 }

end Sys2Proof.Machine
end

