-- ==== Sys2Proof/Machine/Access.lean ====
section
/-! DEFINITION. Host access to codeword and module memory (`43_memory_access.md`): `CWWR`, `CWRD`, `MODWR`, `MODRD`. -/

namespace Sys2Proof.Machine

/-- The coordinates name no cell of `MOD` (rules R64, R70). -/
def outsideMod (x y : Nat) : Bool := decide (x ≥ Config.mMax) || decide (y ≥ Config.mMax)

/-- `CWWR a, d` (rule R170). -/
def execCwwr (a : CwAddr) (d : Byte) (s : State) : Result := done (s.setCwByte a.toNat d)

/-- `CWRD a` (rule R171). -/
def execCwrd (a : CwAddr) (s : State) : Result := respond ((s.cwByte a.toNat).setWidth 32) s.drawn

/-- `MODWR x, y, v` (rule R172). -/
def execModwr (x y : Nat) (v : Bool) (s : State) : Result :=
  if outsideMod x y then raise .range s else done (s.setModBit x y v)

/-- `MODRD x, y` (rule R173). -/
def execModrd (x y : Nat) (s : State) : Result :=
  if outsideMod x y then raise .range s
  else respond (BitVec.ofNat 32 (s.modBit x y).toNat) s.drawn

end Sys2Proof.Machine
end

