-- ==== Sys2Proof/Machine/Bch.lean ====
section
/-! DEFINITION. The BCH(15,5) format and BCH(18,6) version information encoders (`42_bch_info.md`): `FMTENC`,
`VERENC`. -/

namespace Sys2Proof.Machine

/-- `bitlen(v)`: the 1-based position of the highest set bit, 0 for 0 (rule R8). -/
def bitlen (v : Nat) : Nat := if v = 0 then 0 else Nat.log2 v + 1

/-- The loop of rule R150 with at most `passes` passes left. -/
def bchPasses (g : Nat) : Nat → Nat → Nat
  | 0, v => v
  | passes + 1, v =>
    if bitlen v ≥ bitlen g then bchPasses g passes (v ^^^ (g <<< (bitlen v - bitlen g))) else v

/-- `bchreduce(v, g)` (rule R150). Each pass shortens `v` by at least one bit, so `bitlen(v)` passes are enough for
the loop to have ended. -/
def bchReduce (v g : Nat) : Nat := bchPasses g (bitlen v) v

/-- The format generator `0b10100110111` (rule R151). -/
def formatGenerator : Nat := 0b10100110111

/-- The fixed XOR constant of the format information (rule R151). -/
def formatXor : Nat := 0b101010000010010

/-- The version generator `0b1111100100101` (rule R152). -/
def versionGenerator : Nat := 0b1111100100101

/-- `FormatInfo(ec, mask)` (rule R151; conflicts C1 and C2 as `90_conflicts.md` resolves them). -/
def formatInfo (ec mask : Nat) : Nat :=
  let seed := (ec <<< 3) ||| mask
  let remainder := bchReduce (seed <<< 10) formatGenerator
  ((seed <<< 10) ||| remainder) ^^^ formatXor

/-- `VersionInfo(ver)` (rule R152). -/
def versionInfo (ver : Nat) : Nat :=
  let remainder := bchReduce (ver <<< 12) versionGenerator
  (ver <<< 12) ||| remainder

/-- `FMTENC ec, mask` (rule R153). -/
def execFmtenc (ec mask : Nat) (s : State) : Result :=
  if ec > 3 ∨ mask > 7 then raise .illegalValue s
  else respond (BitVec.ofNat 32 (formatInfo ec mask))
    (s.setRegs { s.regs with fmt := BitVec.ofNat 15 (formatInfo ec mask) })

/-- `VERENC ver` (rule R154). -/
def execVerenc (ver : Nat) (s : State) : Result :=
  if ver < 7 ∨ ver > 40 then raise .illegalValue s
  else respond (BitVec.ofNat 32 (versionInfo ver))
    (s.setRegs { s.regs with vinfo := BitVec.ofNat 18 (versionInfo ver) })

end Sys2Proof.Machine
end

