-- ==== Sys2Proof/Machine/Gf.lean ====
section
/-! DEFINITION. GF(256) (`40_gf256.md`): the tables `EXP` and `LOG`, the multiply, and `GFEXP`, `GFLOG`, `GFMUL`,
`GFMAC`. The tables are constants of the design, not state (rules R13, R30). -/

namespace Sys2Proof.Machine

/-- The 9-bit reduction constant `0x11D` (rule R100). -/
def gfReduction : BitVec 9 := 0x11D

/-- One step of the recurrence of rule R100: "antilog[i-1]·2 reduced by XOR 0x11D when bit 8 set". -/
def gfDouble (a : Byte) : Byte :=
  let t : BitVec 9 := a.setWidth 9 <<< 1
  if t.getLsbD 8 then (t ^^^ gfReduction).setWidth 8 else t.setWidth 8

/-- `count` entries of the antilog table, from the entry `a` on. -/
def gfPowersFrom : Nat → Byte → List Byte
  | 0, _ => []
  | count + 1, a => a :: gfPowersFrom count (gfDouble a)

/-- `EXP[0..254]` (rule R100). -/
def expTable : List Byte := gfPowersFrom 255 1

/-- `EXP[i]`; the table has the entries 0 to 254 and the rules ask for no other. -/
def gfExp (i : Nat) : Byte := expTable.getD i 0

/-- `LOG[a]`, the place of `a` in `EXP` (rule R101); there is no entry for 0 and the rules ask for none. -/
def gfLog (a : Byte) : Nat := expTable.idxOf a

/-- `gfmul(a, b)` (rule R102). Every multiplication in QRECE is this one. -/
def gfMul (a b : Byte) : Byte :=
  if a = 0 ∨ b = 0 then 0 else gfExp ((gfLog a + gfLog b) % 255)

/-- `GFEXP e` (rule R104). -/
def execGfexp (e : Nat) (s : State) : Result :=
  if e > 254 then raise .illegalValue s else respond ((gfExp e).setWidth 32) s

/-- `GFLOG a` (rule R105). -/
def execGflog (a : Byte) (s : State) : Result :=
  if a = 0 then raise .illegalValue s else respond (BitVec.ofNat 32 (gfLog a)) s

/-- `ACC <- v`, responding with the new value: how `GFMUL` and `GFMAC` end. -/
def toAcc (v : Byte) (s : State) : Result := respond (v.setWidth 32) (s.setRegs { s.regs with acc := v })

/-- `GFMUL a, b` (rule R106). -/
def execGfmul (a b : Byte) (s : State) : Result := toAcc (gfMul a b) s

/-- `GFMAC a, b` (rule R107). -/
def execGfmac (a b : Byte) (s : State) : Result := toAcc (s.regs.acc ^^^ gfMul a b) s

end Sys2Proof.Machine
end

