-- ==== Sys2Proof/Machine/Flags.lean ====
section
/-! DEFINITION. The derived quantities: the two status bits of rule R27 and the symbol side `SIZE`. None of them is
stored. QRECE has no arithmetic condition codes (rule R27). -/

namespace Sys2Proof.Machine

/-- `CTRL[0]`, `IEN` (rule R37). -/
def Regs.ien (r : Regs) : Bool := r.ctrl.getLsbD 0

/-- `CTRL[1]`, `REMOK` (rule R37). -/
def Regs.remok (r : Regs) : Bool := r.ctrl.getLsbD 1

/-- The level of the `irq` output: `(ERR ≠ 0) and CTRL.IEN` (rule R280). -/
def Regs.irq (r : Regs) : Bool := r.faulted && r.ien

/-- `STATUS`: bit 0 `FAULTED`, bit 1 `IRQ` (rules R34, R223). -/
def Regs.statusWord (r : Regs) : Word := BitVec.ofNat 32 (2 * r.irq.toNat + r.faulted.toNat)

/-- `SIZE`, the side `S` of the symbol: `17 + 4·VER` (rule R43). -/
def Regs.size (r : Regs) : Nat := 17 + 4 * r.ver.toNat

end Sys2Proof.Machine
end

