-- ==== Sys2Proof/Machine/Placement.lean ====
section
/-! DEFINITION. Placement (`44_placement.md`): the reserved-area predicate, the mask predicates, the zig-zag traversal,
and `RSVQ`, `MASKQ`, `RSVCNT`, `PLACE`. Coordinates are `(x, y)`, column and row (rule R11). -/

namespace Sys2Proof.Machine

/-! ## The reserved-area predicate (rules R180 to R182). `side` is `S`, the side of the symbol. -/

/-- The three finders with their buffers, `B_TL`, `B_TR`, `B_BL`; the dark module lies in `B_BL` (rule R180). -/
def inFinderBuffer (side x y : Nat) : Bool :=
  (decide (x ≤ 8) && decide (y ≤ 8))
    || (decide (x ≥ side - 8) && decide (y ≤ 8))
    || (decide (x ≤ 8) && decide (y ≥ side - 8))

/-- The timing lines `T` (rule R180). -/
def onTimingLine (x y : Nat) : Bool := decide (x = 6) || decide (y = 6)

/-- The version blocks `V_BL` and `V_TR`, for version 7 and above (rule R180). -/
def inVersionBlock (ver side x y : Nat) : Bool :=
  decide (ver ≥ 7) &&
    ((decide (x ≤ 5) && decide (side - 11 ≤ y) && decide (y ≤ side - 9))
      || (decide (y ≤ 5) && decide (side - 11 ≤ x) && decide (x ≤ side - 9)))

/-- `AlnKept(cx, cy)`: the 5×5 square around the centre shares no module with a 7×7 finder square (rule R181). -/
def alnKept (side cx cy : Nat) : Bool :=
  !((decide (cx ≤ 8) && decide (cy ≤ 8))
    || (decide (side - 9 ≤ cx) && decide (cx ≤ side + 1) && decide (cy ≤ 8))
    || (decide (cx ≤ 8) && decide (side - 9 ≤ cy) && decide (cy ≤ side + 1)))

/-- `|a - b| ≤ 2`. -/
def withinTwo (a b : Nat) : Bool := decide (a ≤ b + 2) && decide (b ≤ a + 2)

/-- The module lies in a kept alignment pattern; every ordered pair of coordinates is a candidate centre, its column
first (rules R25, R181). -/
def inAlignment (side : Nat) (coords : List Nat) (x y : Nat) : Bool :=
  coords.any fun cx => coords.any fun cy => alnKept side cx cy && withinTwo x cx && withinTwo y cy

/-- The alignment coordinates in use, `ALN[0..ALNCNT-1]` (rule R25). -/
def Regs.alnCoords (r : Regs) : List Nat := (entriesBelow r.aln r.alncnt.toNat).map BitVec.toNat

/-- `Reserved(x, y)` (rule R182). -/
def reserved (r : Regs) (x y : Nat) : Bool :=
  inFinderBuffer r.size x y || onTimingLine x y || inVersionBlock r.ver.toNat r.size x y
    || inAlignment r.size r.alnCoords x y

/-! ## The mask predicates (rule R183) -/

/-- `MaskPred(m, x, y)`; there are the eight ids 0 to 7 and no other. -/
def maskPred (m x y : Nat) : Bool :=
  match m with
  | 0 => (x + y) % 2 == 0
  | 1 => y % 2 == 0
  | 2 => x % 3 == 0
  | 3 => (x + y) % 3 == 0
  | 4 => (x / 3 + y / 2) % 2 == 0
  | 5 => (x * y) % 2 + (x * y) % 3 == 0
  | 6 => ((x * y) % 2 + (x * y) % 3) % 2 == 0
  | 7 => ((x + y) % 2 + (x * y) % 3) % 2 == 0
  | _ => false

/-- The present mask: `MaskPred(MASK, x, y)`. -/
def Regs.maskAt (r : Regs) (x y : Nat) : Bool := maskPred r.mask.toNat x y

/-! ## The traversal (rule R184) -/

/-- One column pair, its right column first in each row, walked upward or downward. -/
def pairCoords (side right : Nat) (up : Bool) : List (Nat × Nat) :=
  (List.range side).flatMap fun v =>
    let y := if up then side - 1 - v else v
    [(right, y), (right - 1, y)]

/-- The loop over the column pairs, with at most `pairs` pairs left: `right` is the right-hand column of the next
pair, and the pair never contains column 6. -/
def zigZagFrom (side : Nat) : Nat → Nat → Bool → List (Nat × Nat)
  | 0, _, _ => []
  | pairs + 1, right, up =>
    if right ≥ 1 then
      let right := if right = 6 then 5 else right
      pairCoords side right up ++ zigZagFrom side pairs (right - 2) (!up)
    else []

/-- `ZigZag(S)` (rule R184). There are `(S-1)/2` pairs, so `S` of them is enough for the loop to have ended. -/
def zigZag (side : Nat) : List (Nat × Nat) := zigZagFrom side side (side - 1) true

/-! ## Counting and placing -/

/-- `FreeCount()`: the number of data modules of the symbol (rule R187). -/
def freeCount (r : Regs) : Nat :=
  ((List.range r.size).map fun y => (List.range r.size).countP fun x => !reserved r x y).sum

/-- Bit `k` of the codeword stream: most significant bit first, lower address first (rule R62). -/
def State.streamBit (s : State) (k : Nat) : Bool := (s.cwByte (k / 8)).getLsbD (7 - k % 8)

/-- `8·NCW` (rule R188). -/
def Regs.nbits (r : Regs) : Nat := 8 * r.ncw.toNat

/-- The checks of `PLACE` fail (rules R188, R189). -/
def placeMismatch (r : Regs) : Bool :=
  decide (freeCount r < r.nbits)
    || (decide (freeCount r > r.nbits) && !(r.remok && decide (freeCount r - r.nbits ≤ 7)))

/-- The loop of rule R188 over the rest of the traversal: `k` stream bits have been consumed so far, and `mem` is the
module memory so far. It answers the bits consumed and the module memory at the end. The registers and the stream
are those of `s`. -/
def placeLoop (s : State) : List (Nat × Nat) → Nat → List (Nat × Bool) → Nat × List (Nat × Bool)
  | [], k, mem => (k, mem)
  | (x, y) :: rest, k, mem =>
    if reserved s.regs x y then placeLoop s rest k mem
    else if k < s.regs.nbits then
      placeLoop s rest (k + 1) (Memory.write mem (Memory.cellNumber x y) (s.streamBit k ^^ s.regs.maskAt x y))
    else
      placeLoop s rest k (Memory.write mem (Memory.cellNumber x y) (false ^^ s.regs.maskAt x y))

/-- `RSVQ x, y` (rule R185): the predicate is defined only inside the symbol. -/
def execRsvq (x y : Nat) (s : State) : Result :=
  if x ≥ s.regs.size ∨ y ≥ s.regs.size then raise .range s
  else respond (BitVec.ofNat 32 (reserved s.regs x y).toNat) s

/-- `MASKQ x, y` (rule R186). -/
def execMaskq (x y : Nat) (s : State) : Result := respond (BitVec.ofNat 32 (s.regs.maskAt x y).toNat) s

/-- `RSVCNT` (rule R187). -/
def execRsvcnt (s : State) : Result := respond (BitVec.ofNat 32 (freeCount s.regs)) s

/-- `PLACE` (rule R188): both checks come before the first write. -/
def execPlace (s : State) : Result :=
  if placeMismatch s.regs then raise .placeMismatch s
  else
    let placed := placeLoop s (zigZag s.regs.size) 0 s.mod
    respond (BitVec.ofNat 32 placed.1)
      { s.drawn with mod := placed.2, regs := { s.regs with bitcnt := BitVec.ofNat 16 placed.1 } }

end Sys2Proof.Machine
end

