-- ==== Sys2Proof/Machine/ReedSolomon.lean ====
section
/-! DEFINITION. The Reed-Solomon unit (`41_reed_solomon.md`): `RSINIT`, `GENWR`, `GENRD`, `GENSTD`, `RSBYTE`, `RSRD`,
`RSRUN`, `RSST`. -/

namespace Sys2Proof.Machine

/-- The feedback of rule R124: "byte XOR register[0]". -/
def rsFeedback (r : Regs) (d : Byte) : Byte := d ^^^ entry r.rem 0

/-- Entry `pos` of the remainder register after one step with feedback `fb` (rule R124): the entries below `ECN`
shift left, a 0 enters at `ECN - 1`, and each gets its product; the entries from `ECN` on do not change. -/
def rsStepEntry (r : Regs) (fb : Byte) (pos : Nat) : Byte :=
  let ecn := r.ecn.toNat
  if pos < ecn then
    (if pos + 1 < ecn then entry r.rem (pos + 1) else 0) ^^^ gfMul (entry r.gen pos) fb
  else entry r.rem pos

/-- `RSStep(d)` (rule R124); every right-hand side reads the `REM` of before the step. -/
def rsStep (r : Regs) (d : Byte) : Regs :=
  let fb := rsFeedback r d
  { r with rem := Vector.ofFn fun pos => rsStepEntry r fb pos }

/-- Multiply the polynomial `g`, highest coefficient first, by `X xor root`, in place and by ascending index, as
the inner loop of rule R125 does: `g[j+1]` still has its old value. -/
def timesFactor (root : Byte) : List Byte → List Byte
  | [] => []
  | [a] => [gfMul a root]
  | a :: b :: rest => (gfMul a root ^^^ b) :: timesFactor root (b :: rest)

/-- The outer loop of rule R125: `count` more factors, from the root `root` on. -/
def timesFactors : Nat → Byte → List Byte → List Byte
  | 0, _, g => g
  | count + 1, root, g => timesFactors count (gfMul root 2) (timesFactor root g)

/-- The coefficients `GENSTD` loads for `ECN = n` (rule R125). -/
def standardGenerator (n : Nat) : List Byte :=
  timesFactors n 1 (List.replicate (n - 1) 0 ++ [1])

/-- A register file whose first entries are `vs` and whose other entries are those of `file`. -/
def loadEntries {n : Nat} (file : Vector Byte n) (vs : List Byte) : Vector Byte n :=
  Vector.ofFn fun i => vs.getD i (entry file i)

/-- `RSINIT n` (rule R121). -/
def execRsinit (n : Nat) (s : State) : Result :=
  if n < 1 ∨ n > Config.ecMax then raise .illegalValue s
  else done (s.setRegs { s.regs with ecn := BitVec.ofNat 5 n, rem := Vector.replicate Config.ecMax 0 })

/-- `GENWR pos, val` (rule R122). -/
def execGenwr (pos : Nat) (val : Byte) (s : State) : Result :=
  if pos ≥ Config.ecMax then raise .range s
  else done (s.setRegs { s.regs with gen := setEntry s.regs.gen pos val })

/-- `GENRD pos` (rule R123). -/
def execGenrd (pos : Nat) (s : State) : Result :=
  if pos ≥ Config.ecMax then raise .range s else respond ((entry s.regs.gen pos).setWidth 32) s

/-- `GENSTD` (rule R125). -/
def execGenstd (s : State) : Result :=
  if s.regs.ecn = 0 then raise .notConfigured s
  else done (s.setRegs
    { s.regs with gen := loadEntries s.regs.gen (standardGenerator s.regs.ecn.toNat) })

/-- `RSBYTE d` (rule R126). -/
def execRsbyte (d : Byte) (s : State) : Result :=
  if s.regs.ecn = 0 then raise .notConfigured s else done (s.setRegs (rsStep s.regs d))

/-- The bytes `CW[start..start+count-1]`, as one draw finds them. -/
def State.cwRun (s : State) (start count : Nat) : List Byte :=
  (List.range count).map fun i => s.cwByte (start + i)

/-- `RSRUN start, count` (rule R127). -/
def execRsrun (start : CwAddr) (count : Nat) (s : State) : Result :=
  if s.regs.ecn = 0 then raise .notConfigured s
  else if start.toNat + count > Config.cwMax then raise .range s
  else done (s.drawn.setRegs ((s.cwRun start.toNat count).foldl rsStep s.regs))

/-- `RSST dst` (rule R128): `REM[0]` at the lowest address. -/
def execRsst (dst : CwAddr) (s : State) : Result :=
  let ecn := s.regs.ecn.toNat
  if s.regs.ecn = 0 then raise .notConfigured s
  else if dst.toNat + ecn > Config.cwMax then raise .range s
  else done (s.setCwRun dst.toNat (entriesBelow s.regs.rem ecn))

/-- `RSRD pos` (rule R129). -/
def execRsrd (pos : Nat) (s : State) : Result :=
  if s.regs.ecn = 0 then raise .notConfigured s
  else if pos ≥ s.regs.ecn.toNat then raise .range s
  else respond ((entry s.regs.rem pos).setWidth 32) s

end Sys2Proof.Machine
end

