-- ==== Sys2Proof/Machine/Operands.lean ====
section
/-! DEFINITION. The CSR space (rules R31 to R49): numbers, reading, which are read-only, legal written values,
writing. It is the one operand form of QRECE that needs interpreting; every other operand is the number in its
field (rule R90). -/

namespace Sys2Proof.Machine

/-- The 22 implemented CSRs (rule R31). -/
inductive Csr where
  | id | status | err | errcmd | ctrl | acc | ecn | fmt | vinfo | ver | size | mask | ncw | bitcnt | alncnt
  /-- `ALN0` to `ALN6`. -/
  | aln (i : Fin 7)
  deriving DecidableEq, Repr

/-- The CSR with number `n`, `none` for the unimplemented numbers 0x0F and 0x17 to 0xFF (rules R31, R49). -/
def Csr.ofNumber (n : Nat) : Option Csr :=
  match n with
  | 0x00 => some .id
  | 0x01 => some .status
  | 0x02 => some .err
  | 0x03 => some .errcmd
  | 0x04 => some .ctrl
  | 0x05 => some .acc
  | 0x06 => some .ecn
  | 0x07 => some .fmt
  | 0x08 => some .vinfo
  | 0x09 => some .ver
  | 0x0A => some .size
  | 0x0B => some .mask
  | 0x0C => some .ncw
  | 0x0D => some .bitcnt
  | 0x0E => some .alncnt
  | 0x10 => some (.aln 0)
  | 0x11 => some (.aln 1)
  | 0x12 => some (.aln 2)
  | 0x13 => some (.aln 3)
  | 0x14 => some (.aln 4)
  | 0x15 => some (.aln 5)
  | 0x16 => some (.aln 6)
  | _ => none

/-- `ID`: the ASCII bytes "QREC" (rule R33). -/
def idConstant : Word := 0x51524543

/-- The value of a CSR, zero-extended to 32 bits (rules R32, R223). -/
def Csr.read (r : Regs) : Csr → Word
  | .id => idConstant
  | .status => r.statusWord
  | .err => r.err.setWidth 32
  | .errcmd => r.errcmd
  | .ctrl => r.ctrl.setWidth 32
  | .acc => r.acc.setWidth 32
  | .ecn => r.ecn.setWidth 32
  | .fmt => r.fmt.setWidth 32
  | .vinfo => r.vinfo.setWidth 32
  | .ver => r.ver.setWidth 32
  | .size => BitVec.ofNat 32 r.size
  | .mask => r.mask.setWidth 32
  | .ncw => r.ncw.setWidth 32
  | .bitcnt => r.bitcnt.setWidth 32
  | .alncnt => r.alncnt.setWidth 32
  | .aln i => (entry r.aln i).setWidth 32

/-- The access column of rule R31: `CSRWR` to one of these raises `ILLEGAL_CSR` (rule R224). -/
def Csr.readOnly : Csr → Bool
  | .id | .status | .err | .errcmd | .ecn | .fmt | .vinfo | .size | .bitcnt => true
  | .ctrl | .acc | .ver | .mask | .ncw | .alncnt | .aln _ => false

/-- The legal written values (rules R37 to R48, R224). A read-only CSR has none. -/
def Csr.legal (v : Nat) : Csr → Bool
  | .ctrl => decide (v ≤ 3)
  | .acc => decide (v ≤ 255)
  | .ver => decide (1 ≤ v) && decide (v ≤ 40)
  | .mask => decide (v ≤ 7)
  | .ncw => decide (v ≤ Config.cwMax)
  | .alncnt => decide (v ≤ Config.alnMax)
  | .aln _ => decide (v ≤ 255)
  | .id | .status | .err | .errcmd | .ecn | .fmt | .vinfo | .size | .bitcnt => false

/-- The registers after `CSR <- v` for a legal `v`: the named register and nothing else (rule R224). A read-only
CSR is never written so. -/
def Csr.write (r : Regs) (v : Nat) : Csr → Regs
  | .ctrl => { r with ctrl := BitVec.ofNat 2 v }
  | .acc => { r with acc := BitVec.ofNat 8 v }
  | .ver => { r with ver := BitVec.ofNat 6 v }
  | .mask => { r with mask := BitVec.ofNat 3 v }
  | .ncw => { r with ncw := BitVec.ofNat 13 v }
  | .alncnt => { r with alncnt := BitVec.ofNat 3 v }
  | .aln i => { r with aln := setEntry r.aln i (BitVec.ofNat 8 v) }
  | .id | .status | .err | .errcmd | .ecn | .fmt | .vinfo | .size | .bitcnt => r

end Sys2Proof.Machine
end

