-- ==== Sys2Proof/Machine/System.lean ====
section
/-! DEFINITION. The system commands (`45_system.md`): `NOP`, `SRST`, `ERRCLR`, `CSRRD`, `CSRWR`. -/

namespace Sys2Proof.Machine

/-- `NOP`: reads and writes no state (rule R220). -/
def execNop (s : State) : Result := done s

/-- `SRST`: every register at its reset value, `CW` and `MOD` unchanged; it ends a fault too (rule R221). -/
def execSrst (s : State) : Result := done s.softReset

/-- `ERRCLR`: `ERR` and `ERRCMD` become 0 and nothing else changes (rule R222). -/
def execErrclr (s : State) : Result := done (s.setRegs s.regs.clearError)

/-- `CSRRD n` (rule R223). -/
def execCsrrd (n : Nat) (s : State) : Result :=
  match Csr.ofNumber n with
  | none => raise .illegalCsr s
  | some c => respond (c.read s.regs) s

/-- `CSRWR n, v` (rule R224): unimplemented, then read-only, then the value. -/
def execCsrwr (n v : Nat) (s : State) : Result :=
  match Csr.ofNumber n with
  | none => raise .illegalCsr s
  | some c =>
    if c.readOnly then raise .illegalCsr s
    else if c.legal v then done (s.setRegs (c.write s.regs v))
    else raise .illegalValue s

end Sys2Proof.Machine
end

