-- ==== Sys2Proof/Machine/Dispatch.lean ====
section
/-! DEFINITION. One arm per command (rule R91): step (4) of the decoding procedure of rule R94, executing the rule of a
decoded command. -/

namespace Sys2Proof.Machine

open Sys2Proof

def exec (i : Instr) (s : State) : Host.Outcome State Fault Refusal :=
  match i with
  | .nop => Sys2Proof.Machine.execNop s
  | .srst => Sys2Proof.Machine.execSrst s
  | .errclr => Sys2Proof.Machine.execErrclr s
  | .csrrd n => Sys2Proof.Machine.execCsrrd n s
  | .csrwr n v => Sys2Proof.Machine.execCsrwr n v s
  | .gfexp e => Sys2Proof.Machine.execGfexp e s
  | .gflog a => Sys2Proof.Machine.execGflog a s
  | .gfmul a b => Sys2Proof.Machine.execGfmul a b s
  | .gfmac a b => Sys2Proof.Machine.execGfmac a b s
  | .rsinit n => Sys2Proof.Machine.execRsinit n s
  | .genwr pos val => Sys2Proof.Machine.execGenwr pos val s
  | .genrd pos => Sys2Proof.Machine.execGenrd pos s
  | .genstd => Sys2Proof.Machine.execGenstd s
  | .rsbyte d => Sys2Proof.Machine.execRsbyte d s
  | .rsrd pos => Sys2Proof.Machine.execRsrd pos s
  | .rsrun start count => Sys2Proof.Machine.execRsrun start count s
  | .rsst dst => Sys2Proof.Machine.execRsst dst s
  | .fmtenc ec mask => Sys2Proof.Machine.execFmtenc ec mask s
  | .verenc ver => Sys2Proof.Machine.execVerenc ver s
  | .cwwr a d => Sys2Proof.Machine.execCwwr a d s
  | .cwrd a => Sys2Proof.Machine.execCwrd a s
  | .modwr x y v => Sys2Proof.Machine.execModwr x y v s
  | .modrd x y => Sys2Proof.Machine.execModrd x y s
  | .rsvq x y => Sys2Proof.Machine.execRsvq x y s
  | .maskq x y => Sys2Proof.Machine.execMaskq x y s
  | .rsvcnt => Sys2Proof.Machine.execRsvcnt s
  | .place => Sys2Proof.Machine.execPlace s

end Sys2Proof.Machine
end

