-- ==== Sys2Proof/Machine/Port.lean ====
section
/-! DEFINITION. The command port: the decoding procedure of rule R94 with the FAULTED lock (rule R275), and what each
thing the host can do does to the block (rule R311). -/

namespace Sys2Proof.Machine

/-- The four opcodes that execute in FAULTED: `NOP`, `SRST`, `ERRCLR`, `CSRRD` (rule R275). -/
def lockExempt (op : Nat) : Bool := op == 0x00 || op == 0x01 || op == 0x02 || op == 0x08

/-- The lock of rule R275, which looks at the opcode only. -/
def State.locks (s : State) (w : Word) : Bool := s.regs.faulted && !lockExempt (opcodeOf w)

/-- One command word (rules R12, R94): the lock, then the encoding, then the command's own rule. -/
def execWord (w : Word) (s : State) : Result :=
  if s.locks w then lockedOut s
  else
    match decode w with
    | none => raise .illegalCmd { s with cmdWord := w }
    | some i => exec i { s with cmdWord := w }

/-- One thing the host does. A command that reset cuts off is abandoned without a response, and the state is that of
rule R300; whatever it had written to a memory is covered by "unspecified" (rule R304). -/
def acceptInput : HostInput → State → Result
  | .command w, s => execWord w s
  | .hardReset, s => .next s.hardReset
  | .commandCutByReset _, s => .next s.hardReset

/-- The block takes what the host presents next; if the host presents nothing the state persists (rule R311). -/
def takeInput (s : State) : Result :=
  match s.pending with
  | [] => .next s
  | input :: rest => acceptInput input { s with pending := rest }

/-- The word made of the low `nbits` bits of `w`. -/
def tableWord (nbits w : Nat) : Word := BitVec.ofNat 32 (w % 2 ^ nbits)

/-- The host presents the command word `w` next, before whatever it was about to present. -/
def State.present (s : State) (w : Word) : State := { s with pending := .command w :: s.pending }

end Sys2Proof.Machine
end

