-- ==== Sys2Proof/Machine/Step.lean ====
section
/-! DEFINITION. One step of the machine: one thing the host does (rules R12, R311). -/

namespace Sys2Proof.Machine

/-- One step: the block takes the next thing the host presents and carries it out whole (rules R12, R66). -/
def step (s : State) : Host.Outcome State Fault Refusal := takeInput s

/-- The state `s` in which the host presents next the command whose low `nbits` bits are `w` (log entry 2). Nothing else
changes. -/
def State.withFetchWord (s : State) (nbits w : Nat) : State := s.present (tableWord nbits w)

end Sys2Proof.Machine
end

