-- ==== Sys2Proof/Safety.lean ====
section
/-! DEFINITION. What a run is, what counts as a safe run, and the terms the claims use: the legal states, the state after
an error, the errors each command may raise, and the polynomials over GF(256) that rule R130 speaks of. -/

namespace Sys2Proof.Machine

/-! ## Legal states -/

/-- The registers hold values their rules call legal. The widths of `CTRL`, `MASK`, `ALNCNT` and of every byte make their
values legal by themselves. -/
structure Regs.Legal (r : Regs) : Prop where
  /-- `ECN` is 0 or 1 to `ECMAX` (rule R24). -/
  ecn_le : r.ecn.toNat ≤ Config.ecMax
  /-- `REM[ECN..29]` is 0 (rule R23). -/
  rem_above : ∀ i, r.ecn.toNat ≤ i → entry r.rem i = 0
  /-- `FMT` is 0 or a format information word (rule R40). -/
  fmt_word : r.fmt = 0 ∨ ∃ ec mask, ec ≤ 3 ∧ mask ≤ 7 ∧ r.fmt.toNat = formatInfo ec mask
  /-- `VINFO` is 0 or a version information word (rule R41). -/
  vinfo_word : r.vinfo = 0 ∨ ∃ ver, 7 ≤ ver ∧ ver ≤ 40 ∧ r.vinfo.toNat = versionInfo ver
  /-- `VER` is 1 to 40 (rule R42). -/
  ver_pos : 1 ≤ r.ver.toNat
  ver_le : r.ver.toNat ≤ 40
  /-- `NCW` is 0 to `CWMAX` (rule R45). -/
  ncw_le : r.ncw.toNat ≤ Config.cwMax
  /-- `BITCNT` is eight times a number of codewords (rule R46). -/
  bitcnt_bytes : ∃ n, n ≤ Config.cwMax ∧ r.bitcnt.toNat = 8 * n
  /-- `ERR` is 0 or the code of a cause; never that of `LOCKED` (rule R35). -/
  err_code : r.err = 0 ∨ ∃ c : Cause, r.err = c.code
  /-- `ERRCMD` is 0 while `ERR` is (rule R36). -/
  errcmd_clear : r.err = 0 → r.errcmd = 0

/-- The invariant of the machine: legal registers and both memories in canonical form within their sizes. -/
structure State.Inv (s : State) : Prop where
  regs : s.regs.Legal
  cw : Memory.wf Config.cwMax s.cw = true
  mod : Memory.wf modCells s.mod = true

/-! ## Runs (rule R311) -/

/-- The run in which the host does `inputs`, one after another, to a block in state `s`. -/
def run (inputs : List HostInput) (s : State) : Result :=
  Host.Core.run Sys2Proof.core inputs.length { s with pending := inputs }

/-- A safe state: however long the machine runs from it, it does not stop. -/
def State.Safe (s : State) : Prop := ∀ n, ∃ t, Host.Core.run Sys2Proof.core n s = .next t

/-- Commands carried out one after another, each on the state the one before it left (rule R66). -/
def execAll : List Instr → State → Result
  | [], s => .next s
  | i :: rest, s =>
    match exec i s with
    | .next t => execAll rest t
    | .fault f => .fault f
    | .refused r => .refused r

/-- One `RSBYTE` per data byte, in order (rule R131). -/
def feed (data : List Byte) (s : State) : Result := execAll (data.map .rsbyte) s

/-! ## Errors -/

/-- The state after a command whose word is `s.cmdWord` has raised `c` in state `s`, as rule R274 words it. -/
def State.raised (s : State) (c : Cause) : State :=
  { s with
    regs := if s.regs.err = 0 then { s.regs with err := c.code, errcmd := s.cmdWord } else s.regs
    responses := s.responses ++ [⟨.error c, 0⟩] }

/-- A command's own errors, in check order (rule R272). -/
def ownErrors : Instr → List Cause
  | .nop | .srst | .errclr => []
  | .csrrd _ => [.illegalCsr]
  | .csrwr _ _ => [.illegalCsr, .illegalValue]
  | .gfexp _ => [.illegalValue]
  | .gflog _ => [.illegalValue]
  | .gfmul _ _ | .gfmac _ _ => []
  | .rsinit _ => [.illegalValue]
  | .genwr _ _ => [.range]
  | .genrd _ => [.range]
  | .genstd => [.notConfigured]
  | .rsbyte _ => [.notConfigured]
  | .rsrd _ => [.notConfigured, .range]
  | .rsrun _ _ => [.notConfigured, .range]
  | .rsst _ => [.notConfigured, .range]
  | .fmtenc _ _ => [.illegalValue]
  | .verenc _ => [.illegalValue]
  | .cwwr _ _ | .cwrd _ => []
  | .modwr _ _ _ | .modrd _ _ => [.range]
  | .rsvq _ _ => [.range]
  | .maskq _ _ | .rsvcnt => []
  | .place => [.placeMismatch]

/-! ## Placement -/

/-- The data modules of the symbol in the order the traversal reaches them (rules R182, R184). -/
def dataModules (r : Regs) : List (Nat × Nat) := (zigZag r.size).filter fun p => !reserved r p.1 p.2

/-- `PLACE` is accepted (rules R188, R189): the data modules are as many as the codeword bits, or with `REMOK` up to
seven more. -/
def PlaceAccepted (r : Regs) : Prop :=
  freeCount r = 8 * r.ncw.toNat ∨
    (r.ctrl.getLsbD 1 = true ∧ 8 * r.ncw.toNat ≤ freeCount r ∧ freeCount r ≤ 8 * r.ncw.toNat + 7)

/-! ## Polynomials over GF(256), coefficients listed highest degree first (rule R130) -/

/-- The XOR of a list of field elements. -/
def xorSum (vs : List Byte) : Byte := vs.foldr (· ^^^ ·) 0

/-- Coefficient number `t`, counted from the highest, of the product of two polynomials. -/
def productCoeff (p q : List Byte) (t : Nat) : Byte :=
  xorSum ((List.range (t + 1)).map fun i => gfMul (p.getD i 0) (q.getD (t - i) 0))

/-- The value of a polynomial at `x`, by Horner's scheme. -/
def evalPoly (p : List Byte) (x : Byte) : Byte := p.foldl (fun v c => gfMul v x ^^^ c) 0

/-- `G(X)` of rule R130 with its implicit leading coefficient 1. -/
def monic (g : List Byte) : List Byte := 1 :: g

end Sys2Proof.Machine
end

