-- ==== Sys2Proof/Certificates/Slice0/Obligations.lean ====
section
/-! DEFINITION. The statements for the provers. Each docstring names the rules of spec/ it rests on. `s.answer st d` is `s`
with one more response, `s.raised c` is `s` after a command has raised `c` (rule R274), and `{ s with ... }` names
everything that changes, so a statement of a next state in that form is its frame too. -/

open Sys2Proof Sys2Proof.Machine

/-! ## Encoding -/

/-- One word for each of the 27 commands, written out from the formats of rules R83 to R89, decodes to the command it stands
for, and the illegal words of rule R92's examples decode to none. -/
def Obligations.SpecWordsDecode : Prop :=
  decode 0x00000000 = some .nop ∧ decode 0x01000000 = some .srst ∧ decode 0x02000000 = some .errclr ∧
  decode 0x080A0000 = some (.csrrd 0x0A) ∧ decode 0x09090029 = some (.csrwr 0x09 41) ∧
  decode 0x10000008 = some (.gfexp 8) ∧ decode 0x1100001D = some (.gflog 0x1D) ∧
  decode 0x12000280 = some (.gfmul 0x02 0x80) ∧ decode 0x13000307 = some (.gfmac 0x03 0x07) ∧
  decode 0x2000000A = some (.rsinit 10) ∧ decode 0x21001DAA = some (.genwr 29 0xAA) ∧
  decode 0x2200001D = some (.genrd 29) ∧ decode 0x23000000 = some .genstd ∧
  decode 0x2400005B = some (.rsbyte 0x5B) ∧ decode 0x25000009 = some (.rsrd 9) ∧
  decode 0x26FA0061 = some (.rsrun 4000 97) ∧ decode 0x27FF6000 = some (.rsst 4086) ∧
  decode 0x30000307 = some (.fmtenc 3 7) ∧ decode 0x31000028 = some (.verenc 40) ∧
  decode 0x40FFF0A5 = some (.cwwr 4095 0xA5) ∧ decode 0x41019000 = some (.cwrd 25) ∧
  decode 0x42080D01 = some (.modwr 8 13 true) ∧ decode 0x43131400 = some (.modrd 19 20) ∧
  decode 0x50101400 = some (.rsvq 16 20) ∧ decode 0x51120900 = some (.maskq 18 9) ∧
  decode 0x52000000 = some .rsvcnt ∧ decode 0x53000000 = some .place ∧
  decode 0x00000001 = none ∧ decode 0x10000100 = none ∧ decode 0x42050502 = none ∧
  decode 0x08050001 = none ∧ decode 0x03000000 = none ∧ decode 0xFFFFFFFF = none

/-- Decoding the word of a well-formed command gives the command back, for every operand its fields admit (rules R83 to
R96). -/
def Obligations.DecodeOfEncode : Prop :=
  ∀ i : Instr, i.wellFormed = true → decode (encode i) = some i

/-- A decoded command is well-formed and has no other word than the one it was decoded from: no bit of a legal word is
ignored (rules R81, R93). -/
def Obligations.EncodeOfDecode : Prop :=
  ∀ (w : Word) (i : Instr), decode w = some i → i.wellFormed = true ∧ encode i = w

/-- The decoder agrees with the match and mask columns of rule R91: a word is a command exactly when `w and mask` is that
row's `match`, and a word that no row selects is illegal (rule R92). -/
def Obligations.DecoderAgreesWithMatchAndMask : Prop :=
  ∀ w : Word,
    (∀ r ∈ opcodeTable, w &&& r.mask = r.mtch → ∃ i, decode w = some i ∧ i.mnemonic = r.mnemonic) ∧
    (∀ i, decode w = some i → ∃ r ∈ opcodeTable, w &&& r.mask = r.mtch ∧ i.mnemonic = r.mnemonic)

/-! ## The step: decoding procedure, lock, errors, reset -/

/-- A step on a presented word that the lock lets through and that decodes to `i` is `exec i`, on the state in which the
word has been taken from the port (rule R94). -/
def Obligations.StepRunsDecodedCommand : Prop :=
  ∀ (s : State) (w : Word) (rest : List HostInput) (i : Instr),
    s.pending = .command w :: rest → decode w = some i →
    (s.regs.err = 0 ∨ w.extractLsb' 24 8 = 0x00#8 ∨ w.extractLsb' 24 8 = 0x01#8 ∨
      w.extractLsb' 24 8 = 0x02#8 ∨ w.extractLsb' 24 8 = 0x08#8) →
    step s = exec i { s with pending := rest, cmdWord := w }

/-- While `ERR ≠ 0`, a word whose opcode is none of the four exempt ones answers `LOCKED`, 0 and changes no state at all,
even if the opcode is unassigned (rule R275). -/
def Obligations.LockedWordChangesNothing : Prop :=
  ∀ (s : State) (w : Word) (rest : List HostInput),
    s.pending = .command w :: rest → s.regs.err ≠ 0 →
    w.extractLsb' 24 8 ≠ 0x00#8 → w.extractLsb' 24 8 ≠ 0x01#8 →
    w.extractLsb' 24 8 ≠ 0x02#8 → w.extractLsb' 24 8 ≠ 0x08#8 →
    step s = .next { s with pending := rest, responses := s.responses ++ [⟨.locked, 0⟩] }

/-- A word that no row selects and that is not locked raises `ILLEGAL_CMD`: the code and the word are recorded if no error
was, and nothing else changes (rules R92, R274, R277). -/
def Obligations.IllegalWordRaisesIllegalCmd : Prop :=
  ∀ (s : State) (w : Word) (rest : List HostInput),
    s.pending = .command w :: rest → decode w = none →
    (s.regs.err = 0 →
      step s = .next { s with
        pending := rest, cmdWord := w
        regs := { s.regs with err := 0x01, errcmd := w }
        responses := s.responses ++ [⟨.error .illegalCmd, 0⟩] }) ∧
    (s.regs.err ≠ 0 →
      (w.extractLsb' 24 8 = 0x00#8 ∨ w.extractLsb' 24 8 = 0x01#8 ∨ w.extractLsb' 24 8 = 0x02#8 ∨
        w.extractLsb' 24 8 = 0x08#8) →
      step s = .next { s with
        pending := rest, cmdWord := w
        responses := s.responses ++ [⟨.error .illegalCmd, 0⟩] })

/-- Every command that raises changes no register but `ERR` and `ERRCMD`, no byte of `CW` and no bit of `MOD`; it records
its code and its word if no error was recorded (rule R274). The codes are the eight of rule R271. -/
def Obligations.RaisingCommandWritesNothingElse : Prop :=
  (Status.ok.code = 0x00 ∧ Cause.illegalCmd.code = 0x01 ∧ Cause.illegalCsr.code = 0x02 ∧
    Cause.illegalValue.code = 0x03 ∧ Cause.range.code = 0x04 ∧ Cause.notConfigured.code = 0x05 ∧
    Cause.placeMismatch.code = 0x06 ∧ Status.locked.code = 0x07 ∧ ∀ c : Cause, (Status.error c).code = c.code) ∧
  ∀ (i : Instr) (s t : State) (c : Cause) (d : Word),
    exec i s = .next t → t.responses = s.responses ++ [⟨.error c, d⟩] →
    d = 0 ∧ t.regs = (if s.regs.err = 0 then { s.regs with err := c.code, errcmd := s.cmdWord } else s.regs) ∧
    t.cw = s.cw ∧ t.mod = s.mod ∧ t.draws = s.draws ∧ t.pending = s.pending

/-- No command raises an error that rule R272 does not list against it. -/
def Obligations.CommandsRaiseOnlyTheirOwnErrors : Prop :=
  ∀ (i : Instr) (s t : State) (c : Cause) (d : Word),
    exec i s = .next t → t.responses = s.responses ++ [⟨.error c, d⟩] → c ∈ ownErrors i

/-- While FAULTED, the only errors possible are `LOCKED`, and `ILLEGAL_CMD` or `ILLEGAL_CSR` from an exempt opcode; a word
with another opcode answers nothing but `LOCKED`. Every word but `ERRCLR` and `SRST` leaves every register and both
memories as they are, so the first error stays recorded; those two clear `ERR` and `ERRCMD` (rule R277). -/
def Obligations.FaultedStateIsFrozen : Prop :=
  ∀ (s t : State) (w : Word) (rest : List HostInput),
    s.regs.err ≠ 0 → s.pending = .command w :: rest → step s = .next t →
    (∃ r, t.responses = s.responses ++ [r] ∧
      r.status ∈ [.ok, .locked, .error .illegalCmd, .error .illegalCsr] ∧
      (r.status ≠ .locked → w.extractLsb' 24 8 = 0x00#8 ∨ w.extractLsb' 24 8 = 0x01#8 ∨
        w.extractLsb' 24 8 = 0x02#8 ∨ w.extractLsb' 24 8 = 0x08#8)) ∧
    (w ≠ 0x01000000 → w ≠ 0x02000000 → t.regs = s.regs ∧ t.cw = s.cw ∧ t.mod = s.mod) ∧
    (w = 0x01000000 ∨ w = 0x02000000 → t.regs.err = 0 ∧ t.regs.errcmd = 0)

/-- A command that failed fails again in the same way when the error has been acknowledged and it is sent again with
unchanged state (rule R276). -/
def Obligations.RetryFailsInTheSameWay : Prop :=
  ∀ (i : Instr) (s t u : State) (c : Cause) (d : Word),
    s.regs.err = 0 → exec i s = .next t → t.responses = s.responses ++ [⟨.error c, d⟩] →
    exec .errclr t = .next u →
    ∃ v, exec i u = .next v ∧ v.responses = u.responses ++ [⟨.error c, d⟩] ∧
      v.regs.err = c.code

/-- Every presented command word produces exactly one response, and its datum is 0 unless its status is `OK`
(rules R66 (c), R95). -/
def Obligations.OneResponsePerCommand : Prop :=
  ∀ (s : State) (w : Word) (rest : List HostInput), s.pending = .command w :: rest →
    ∃ t r, step s = .next t ∧ t.responses = s.responses ++ [r] ∧ t.pending = rest ∧
      (r.status ≠ .ok → r.data = 0)

/-- A run of `k` words (rule R311) ends in a next state with `k` more responses, whatever the words are and whatever state it
starts in (rules R66, R308). -/
def Obligations.RunAnswersEveryWord : Prop :=
  ∀ (words : List Word) (s : State), ∃ t rs, run (words.map .command) s = .next t ∧
    t.responses = s.responses ++ rs ∧ rs.length = words.length ∧ t.pending = []

/-- No state stops the machine, however long it runs: every sequence of words has an outcome; without a further word the
state persists (rules R308, R311). -/
def Obligations.EveryStateIsSafe : Prop :=
  (∀ s : State, s.Safe) ∧ ∀ s : State, s.pending = [] → step s = .next s

/-- Hardware reset, between commands or in the middle of one, gives every register the value of rule R300's table, leaves
no byte of `CW` and no bit of `MOD` with a specified value, and produces no response (rules R300, R304). -/
def Obligations.HardwareResetGivesResetValues : Prop :=
  ∀ (s : State) (w : Word) (rest : List HostInput),
    s.pending = .hardReset :: rest ∨ s.pending = .commandCutByReset w :: rest →
    ∃ t, step s = .next t ∧
      t.regs.acc = 0 ∧ (∀ i < 30, entry t.regs.gen i = 0) ∧ (∀ i < 30, entry t.regs.rem i = 0) ∧
      t.regs.ecn = 0 ∧ t.regs.fmt = 0 ∧ t.regs.vinfo = 0 ∧ t.regs.ver = 1 ∧ t.regs.mask = 0 ∧
      t.regs.ncw = 0 ∧ t.regs.bitcnt = 0 ∧ t.regs.ctrl = 0 ∧ t.regs.alncnt = 0 ∧
      (∀ i < 7, entry t.regs.aln i = 0) ∧ t.regs.err = 0 ∧ t.regs.errcmd = 0 ∧
      t.regs.size = 21 ∧ t.regs.statusWord = 0 ∧ t.regs.faulted = false ∧ t.regs.irq = false ∧
      (∀ a, Memory.read t.cw a = none) ∧ (∀ n, Memory.read t.mod n = none) ∧
      t.responses = s.responses ∧ t.pending = rest

/-- The reset state itself holds the values of rule R300's table. (That nothing is presented or answered in it is the
model's choice, log entry 2.) -/
def Obligations.ResetStateAsSpecified : Prop :=
  State.reset.regs.acc = 0 ∧ (∀ i < 30, entry State.reset.regs.gen i = 0) ∧
  (∀ i < 30, entry State.reset.regs.rem i = 0) ∧ State.reset.regs.ecn = 0 ∧ State.reset.regs.fmt = 0 ∧
  State.reset.regs.vinfo = 0 ∧ State.reset.regs.ver = 1 ∧ State.reset.regs.mask = 0 ∧
  State.reset.regs.ncw = 0 ∧ State.reset.regs.bitcnt = 0 ∧ State.reset.regs.ctrl = 0 ∧
  State.reset.regs.alncnt = 0 ∧ (∀ i < 7, entry State.reset.regs.aln i = 0) ∧
  State.reset.regs.err = 0 ∧ State.reset.regs.errcmd = 0 ∧
  (∀ a, Memory.read State.reset.cw a = none) ∧ (∀ n, Memory.read State.reset.mod n = none)

/-- The invariant holds at reset. -/
def Obligations.InvariantAtReset : Prop := State.reset.Inv

/-- Every step keeps the invariant: legal registers (rules R23, R24, R35, R36, R40 to R46) and both memories in
canonical form within their sizes (rules R28, R29), whatever the host does. -/
def Obligations.EveryStepKeepsInvariant : Prop :=
  ∀ s t : State, s.Inv → step s = .next t → t.Inv

/-- The "written by" column of rule R20: a register or memory changes only when one of the commands listed for it is
carried out. -/
def Obligations.OnlyListedCommandsWrite : Prop :=
  ∀ (i : Instr) (s t : State), exec i s = .next t →
    (t.regs.acc = s.regs.acc ∨ i = .srst ∨ (∃ a b, i = .gfmul a b) ∨ (∃ a b, i = .gfmac a b) ∨ ∃ v, i = .csrwr 0x05 v) ∧
    (t.regs.gen = s.regs.gen ∨ i = .srst ∨ (∃ p v, i = .genwr p v) ∨ i = .genstd) ∧
    (t.regs.rem = s.regs.rem ∨ i = .srst ∨ (∃ n, i = .rsinit n) ∨ (∃ d, i = .rsbyte d) ∨ ∃ a c, i = .rsrun a c) ∧
    (t.regs.ecn = s.regs.ecn ∨ i = .srst ∨ ∃ n, i = .rsinit n) ∧
    (t.regs.fmt = s.regs.fmt ∨ i = .srst ∨ ∃ e m, i = .fmtenc e m) ∧
    (t.regs.vinfo = s.regs.vinfo ∨ i = .srst ∨ ∃ v, i = .verenc v) ∧
    (t.regs.ver = s.regs.ver ∨ i = .srst ∨ ∃ v, i = .csrwr 0x09 v) ∧
    (t.regs.mask = s.regs.mask ∨ i = .srst ∨ ∃ v, i = .csrwr 0x0B v) ∧
    (t.regs.ncw = s.regs.ncw ∨ i = .srst ∨ ∃ v, i = .csrwr 0x0C v) ∧
    (t.regs.bitcnt = s.regs.bitcnt ∨ i = .srst ∨ i = .place) ∧
    (t.regs.ctrl = s.regs.ctrl ∨ i = .srst ∨ ∃ v, i = .csrwr 0x04 v) ∧
    (t.regs.alncnt = s.regs.alncnt ∨ i = .srst ∨ ∃ v, i = .csrwr 0x0E v) ∧
    (∀ j < 7, entry t.regs.aln j = entry s.regs.aln j ∨ i = .srst ∨ ∃ v, i = .csrwr (0x10 + j) v) ∧
    ((t.regs.err = s.regs.err ∧ t.regs.errcmd = s.regs.errcmd) ∨ i = .srst ∨ i = .errclr ∨
      (s.regs.err = 0 ∧ ∃ c, t.responses = s.responses ++ [⟨.error c, 0⟩])) ∧
    (t.cw = s.cw ∨ (∃ a d, i = .cwwr a d) ∨ ∃ a, i = .rsst a) ∧
    (t.mod = s.mod ∨ (∃ x y v, i = .modwr x y v) ∨ i = .place)

/-- `ACC` is read by `GFMAC` and `CSRRD ACC` alone (rules R20, R21): whatever `ACC` holds, every other command gives the
same response and leaves everything but `ACC` the same. -/
def Obligations.AccInfluencesOnlyItsReaders : Prop :=
  ∀ (i : Instr) (s t : State) (v : Byte),
    (∀ a b, i ≠ .gfmac a b) → i ≠ .csrrd 0x05 → exec i s = .next t →
    ∃ t', exec i { s with regs := { s.regs with acc := v } } = .next t' ∧
      { t' with regs := { t'.regs with acc := t.regs.acc } } = t

/-- The commands that only ask leave every register and both memories as they are when they are carried out: no location has a
read side effect (rule R65). -/
def Obligations.QueriesChangeNoState : Prop :=
  ∀ (i : Instr) (s : State) (n : Nat) (a : Byte) (p : CwAddr) (x y : Nat),
    i = .nop ∨ i = .csrrd n ∨ i = .gfexp n ∨ i = .gflog a ∨ i = .genrd n ∨ i = .rsrd n ∨ i = .cwrd p ∨
      i = .modrd x y ∨ i = .rsvq x y ∨ i = .maskq x y ∨ i = .rsvcnt →
    ∃ t r, exec i s = .next t ∧ t.responses = s.responses ++ [r] ∧ t.cw = s.cw ∧ t.mod = s.mod ∧
      t.pending = s.pending ∧ (r.status = .ok → t.regs = s.regs)

/-- Repeating a host write leaves the registers and the memories as the first one did (rule R65). -/
def Obligations.HostWritesAreIdempotent : Prop :=
  ∀ (i : Instr) (s t u : State) (a : CwAddr) (d : Byte) (x y n : Nat) (b : Bool),
    i = .cwwr a d ∨ i = .modwr x y b ∨ i = .genwr n d ∨ i = .csrwr x y →
    exec i s = .next t → exec i t = .next u → u.regs = t.regs ∧ u.cw = t.cw ∧ u.mod = t.mod

/-! ## System commands and CSRs -/

/-- `NOP` changes no state; `SRST` gives every register its reset value, so that the registers are those of the reset state,
and leaves `CW` and `MOD` unchanged; `ERRCLR` clears `ERR` and `ERRCMD` and changes nothing else
(rules R220, R221, R222). -/
def Obligations.NopSrstErrclrResults : Prop :=
  ∀ s : State,
    exec .nop s = .next { s with responses := s.responses ++ [⟨.ok, 0⟩] } ∧
    (∃ t, exec .srst s = .next t ∧ t.regs = State.reset.regs ∧ t = { s with
      regs := {
        acc := 0, gen := Vector.replicate 30 0, rem := Vector.replicate 30 0, ecn := 0, fmt := 0, vinfo := 0
        ver := 1, mask := 0, ncw := 0, bitcnt := 0, ctrl := 0, alncnt := 0, aln := Vector.replicate 7 0
        err := 0, errcmd := 0 }
      responses := s.responses ++ [⟨.ok, 0⟩] }) ∧
    exec .errclr s = .next { s with
      regs := { s.regs with err := 0, errcmd := 0 }, responses := s.responses ++ [⟨.ok, 0⟩] }

/-- `CSRRD` of every implemented CSR answers its value, zero-extended, and changes nothing; of every other number it raises
`ILLEGAL_CSR` (rule R223). -/
def Obligations.CsrrdResult : Prop :=
  ∀ s : State,
    exec (.csrrd 0x00) s = .next (s.answer .ok 0x51524543) ∧
    exec (.csrrd 0x01) s = .next (s.answer .ok
      (if s.regs.err = 0 then 0 else if s.regs.ctrl.getLsbD 0 then 3 else 1)) ∧
    exec (.csrrd 0x02) s = .next (s.answer .ok (s.regs.err.setWidth 32)) ∧
    exec (.csrrd 0x03) s = .next (s.answer .ok s.regs.errcmd) ∧
    exec (.csrrd 0x04) s = .next (s.answer .ok (s.regs.ctrl.setWidth 32)) ∧
    exec (.csrrd 0x05) s = .next (s.answer .ok (s.regs.acc.setWidth 32)) ∧
    exec (.csrrd 0x06) s = .next (s.answer .ok (s.regs.ecn.setWidth 32)) ∧
    exec (.csrrd 0x07) s = .next (s.answer .ok (s.regs.fmt.setWidth 32)) ∧
    exec (.csrrd 0x08) s = .next (s.answer .ok (s.regs.vinfo.setWidth 32)) ∧
    exec (.csrrd 0x09) s = .next (s.answer .ok (s.regs.ver.setWidth 32)) ∧
    exec (.csrrd 0x0A) s = .next (s.answer .ok (17 + 4 * s.regs.ver.setWidth 32)) ∧
    exec (.csrrd 0x0B) s = .next (s.answer .ok (s.regs.mask.setWidth 32)) ∧
    exec (.csrrd 0x0C) s = .next (s.answer .ok (s.regs.ncw.setWidth 32)) ∧
    exec (.csrrd 0x0D) s = .next (s.answer .ok (s.regs.bitcnt.setWidth 32)) ∧
    exec (.csrrd 0x0E) s = .next (s.answer .ok (s.regs.alncnt.setWidth 32)) ∧
    (∀ i < 7, exec (.csrrd (0x10 + i)) s = .next (s.answer .ok ((entry s.regs.aln i).setWidth 32))) ∧
    (∀ n, n = 0x0F ∨ 0x17 ≤ n → exec (.csrrd n) s = .next (s.raised .illegalCsr))

/-- `CSRWR` of a legal value writes the named register and nothing else; of an unimplemented or read-only CSR it raises
`ILLEGAL_CSR` whatever the value is, and of an illegal value `ILLEGAL_VALUE` (rule R224). -/
def Obligations.CsrwrResult : Prop :=
  ∀ (s : State) (v : Nat),
    (v ≤ 3 → exec (.csrwr 0x04 v) s =
      .next ({ s with regs := { s.regs with ctrl := BitVec.ofNat 2 v } }.answer .ok 0)) ∧
    (v ≤ 255 → exec (.csrwr 0x05 v) s =
      .next ({ s with regs := { s.regs with acc := BitVec.ofNat 8 v } }.answer .ok 0)) ∧
    (1 ≤ v → v ≤ 40 → exec (.csrwr 0x09 v) s =
      .next ({ s with regs := { s.regs with ver := BitVec.ofNat 6 v } }.answer .ok 0)) ∧
    (v ≤ 7 → exec (.csrwr 0x0B v) s =
      .next ({ s with regs := { s.regs with mask := BitVec.ofNat 3 v } }.answer .ok 0)) ∧
    (v ≤ 4096 → exec (.csrwr 0x0C v) s =
      .next ({ s with regs := { s.regs with ncw := BitVec.ofNat 13 v } }.answer .ok 0)) ∧
    (v ≤ 7 → exec (.csrwr 0x0E v) s =
      .next ({ s with regs := { s.regs with alncnt := BitVec.ofNat 3 v } }.answer .ok 0)) ∧
    (∀ i < 7, v ≤ 255 → ∃ t, exec (.csrwr (0x10 + i) v) s = .next t ∧
      t = { s with regs := { s.regs with aln := t.regs.aln }, responses := s.responses ++ [⟨.ok, 0⟩] } ∧
      ∀ j < 7, entry t.regs.aln j = if j = i then BitVec.ofNat 8 v else entry s.regs.aln j) ∧
    (∀ n, n ∈ [0x00, 0x01, 0x02, 0x03, 0x06, 0x07, 0x08, 0x0A, 0x0D] ∨ n = 0x0F ∨ 0x17 ≤ n →
      exec (.csrwr n v) s = .next (s.raised .illegalCsr)) ∧
    ∀ n, (n = 0x04 ∧ 3 < v) ∨ (n = 0x05 ∧ 255 < v) ∨ (n = 0x09 ∧ (v = 0 ∨ 40 < v)) ∨ (n = 0x0B ∧ 7 < v) ∨
      (n = 0x0C ∧ 4096 < v) ∨ (n = 0x0E ∧ 7 < v) ∨ (0x10 ≤ n ∧ n ≤ 0x16 ∧ 255 < v) →
      exec (.csrwr n v) s = .next (s.raised .illegalValue)

/-- A value that `CSRWR` accepted is what `CSRRD` of the same number answers next, and every other CSR but the derived
`STATUS` and `SIZE` answers what it answered before (rules R32, R224, R308). -/
def Obligations.CsrReadsBackWhatWasWritten : Prop :=
  ∀ (s t : State) (n v : Nat),
    exec (.csrwr n v) s = .next t → t.responses = s.responses ++ [⟨.ok, 0⟩] →
    exec (.csrrd n) t = .next (t.answer .ok (BitVec.ofNat 32 v)) ∧
    ∀ m d, m ≠ n → m ≠ 0x01 → m ≠ 0x0A →
      exec (.csrrd m) s = .next (s.answer .ok d) → exec (.csrrd m) t = .next (t.answer .ok d)

/-- `irq` is 1 exactly when `ERR ≠ 0` and `CTRL[0] = 1`, and `STATUS[1]` reads the same level (rules R34, R280). -/
def Obligations.IrqLevelAndStatus : Prop :=
  ∀ s : State, (s.regs.irq = true ↔ s.regs.err ≠ 0 ∧ s.regs.ctrl.getLsbD 0 = true) ∧
    ∃ d, exec (.csrrd 0x01) s = .next (s.answer .ok d) ∧ d.getLsbD 1 = s.regs.irq ∧
      (d.getLsbD 0 = true ↔ s.regs.err ≠ 0) ∧ ∀ k, 2 ≤ k → d.getLsbD k = false

/-! ## GF(256) -/

/-- The antilog table is the one of rule R100's recurrence: 255 entries from 1 on, each the double of the one before,
reduced by `0x11D` when bit 8 is set; none is 0, no two are equal, and the step after the last gives 1 again. -/
def Obligations.ExpTableFollowsRecurrence : Prop :=
  expTable.length = 255 ∧ gfExp 0 = 1 ∧
  (∀ i < 254, (gfExp (i + 1)).toNat =
    if 256 ≤ 2 * (gfExp i).toNat then (2 * (gfExp i).toNat) ^^^ 0x11D else 2 * (gfExp i).toNat) ∧
  (2 * (gfExp 254).toNat) ^^^ 0x11D = 1 ∧ gfExp 254 = 0x8E ∧
  (∀ i < 255, gfExp i ≠ 0) ∧ (∀ i < 255, ∀ j < 255, gfExp i = gfExp j → i = j)

/-- `LOG` is the inverse of `EXP`: it has an entry in 0 to 254 for every value but 0 (rule R101). -/
def Obligations.LogInvertsExp : Prop :=
  (∀ i < 255, gfLog (gfExp i) = i) ∧ (∀ a : Byte, a ≠ 0 → gfLog a < 255 ∧ gfExp (gfLog a) = a)

/-- The laws of the field (rule R103): `gfmul` is commutative, associative, distributes over XOR, has identity 1 and
absorbing element 0, every non-zero element has the inverse the rule names, and multiplying by 2 is one step of the
recurrence of rule R100. -/
def Obligations.GfMulIsFieldMultiplication : Prop :=
  (∀ a b : Byte, gfMul a b = gfMul b a) ∧
  (∀ a b c : Byte, gfMul (gfMul a b) c = gfMul a (gfMul b c)) ∧
  (∀ a b c : Byte, gfMul a (b ^^^ c) = gfMul a b ^^^ gfMul a c) ∧
  (∀ a : Byte, gfMul a 1 = a ∧ gfMul a 0 = 0) ∧
  (∀ a : Byte, a ≠ 0 → gfMul a (gfExp ((255 - gfLog a) % 255)) = 1) ∧
  (∀ a : Byte, (gfMul a 2).toNat =
    if 256 ≤ 2 * a.toNat then (2 * a.toNat) ^^^ 0x11D else 2 * a.toNat)

/-- `GFEXP` and `GFLOG` read the tables and write no state; outside the tables they raise `ILLEGAL_VALUE`
(rules R104, R105). -/
def Obligations.GfexpAndGflogResults : Prop :=
  ∀ (s : State) (e : Nat) (a : Byte),
    (e ≤ 254 → exec (.gfexp e) s = .next (s.answer .ok ((gfExp e).setWidth 32))) ∧
    (255 ≤ e → exec (.gfexp e) s = .next (s.raised .illegalValue)) ∧
    (a ≠ 0 → exec (.gflog a) s = .next (s.answer .ok (BitVec.ofNat 32 (gfLog a)))) ∧
    exec (.gflog 0) s = .next (s.raised .illegalValue)

/-- `GFMUL` writes the product to `ACC`, `GFMAC` XORs it into `ACC`; both answer the new `ACC` and change nothing else
(rules R106, R107). -/
def Obligations.GfmulAndGfmacResults : Prop :=
  ∀ (s : State) (a b : Byte),
    exec (.gfmul a b) s = .next ({ s with
      regs := { s.regs with acc := gfMul a b } }.answer .ok ((gfMul a b).setWidth 32)) ∧
    exec (.gfmac a b) s = .next ({ s with
      regs := { s.regs with acc := s.regs.acc ^^^ gfMul a b } }.answer .ok
        ((s.regs.acc ^^^ gfMul a b).setWidth 32))

/-! ## Reed-Solomon -/

/-- `RSINIT n` sets `ECN` and clears all of `REM`, leaving everything else; `n = 0` and `n ≥ 31` raise `ILLEGAL_VALUE`
(rule R121). -/
def Obligations.RsinitResult : Prop :=
  ∀ (s : State) (n : Nat),
    (1 ≤ n → n ≤ 30 → ∃ t, exec (.rsinit n) s = .next t ∧ t.regs.ecn.toNat = n ∧
      (∀ i < 30, entry t.regs.rem i = 0) ∧
      t = { s with regs := { s.regs with ecn := t.regs.ecn, rem := t.regs.rem },
                   responses := s.responses ++ [⟨.ok, 0⟩] }) ∧
    (n = 0 ∨ 31 ≤ n → exec (.rsinit n) s = .next (s.raised .illegalValue))

/-- `GENWR` writes one entry of `GEN` and nothing else, `GENRD` answers one entry; both raise `RANGE` from position 30 on
(rules R122, R123). -/
def Obligations.GenwrAndGenrdResults : Prop :=
  ∀ (s : State) (pos : Nat) (val : Byte),
    (pos < 30 → ∃ t, exec (.genwr pos val) s = .next t ∧
      (∀ i < 30, entry t.regs.gen i = if i = pos then val else entry s.regs.gen i) ∧
      t = { s with regs := { s.regs with gen := t.regs.gen }, responses := s.responses ++ [⟨.ok, 0⟩] }) ∧
    (pos < 30 → exec (.genrd pos) s = .next (s.answer .ok ((entry s.regs.gen pos).setWidth 32))) ∧
    (30 ≤ pos → exec (.genwr pos val) s = .next (s.raised .range) ∧
      exec (.genrd pos) s = .next (s.raised .range))

/-- `GENSTD` loads the coefficients of rule R125 into `GEN[0..ECN-1]` and leaves the rest of `GEN` and everything else;
`ECN = 0` raises `NOT_CONFIGURED`. -/
def Obligations.GenstdResult : Prop :=
  ∀ s : State,
    (s.regs.ecn ≠ 0 → ∃ t, exec .genstd s = .next t ∧
      (∀ i < 30, entry t.regs.gen i =
        if i < s.regs.ecn.toNat then (standardGenerator s.regs.ecn.toNat).getD i 0 else entry s.regs.gen i) ∧
      t = { s with regs := { s.regs with gen := t.regs.gen }, responses := s.responses ++ [⟨.ok, 0⟩] }) ∧
    (s.regs.ecn = 0 → exec .genstd s = .next (s.raised .notConfigured))

/-- The generator `GENSTD` loads has `n` coefficients and its roots are the first `n` powers of 2: every factor
`X xor EXP[i]` of rule R125 is there. -/
def Obligations.StandardGeneratorHasItsRoots : Prop :=
  ∀ n, 1 ≤ n → n ≤ 30 → (standardGenerator n).length = n ∧
    ∀ i < n, evalPoly (monic (standardGenerator n)) (gfExp i) = 0

/-- `RSBYTE d` is one step of the shift register of rule R124: it writes `REM` and nothing else, every right-hand side reads
the `REM` of before, and `REM[ECN..29]` does not change; `ECN = 0` raises `NOT_CONFIGURED` (rules R124, R126). -/
def Obligations.RsbyteResult : Prop :=
  ∀ (s : State) (d : Byte),
    (s.regs.ecn ≠ 0 → ∃ t, exec (.rsbyte d) s = .next t ∧
      (∀ pos < 30, entry t.regs.rem pos =
        if pos + 1 < s.regs.ecn.toNat then
          entry s.regs.rem (pos + 1) ^^^ gfMul (entry s.regs.gen pos) (d ^^^ entry s.regs.rem 0)
        else if pos + 1 = s.regs.ecn.toNat then gfMul (entry s.regs.gen pos) (d ^^^ entry s.regs.rem 0)
        else entry s.regs.rem pos) ∧
      t = { s with regs := { s.regs with rem := t.regs.rem }, responses := s.responses ++ [⟨.ok, 0⟩] }) ∧
    (s.regs.ecn = 0 → exec (.rsbyte d) s = .next (s.raised .notConfigured))

/-- `RSRUN start, count` leaves `REM` as the `RSBYTE`s of `CW[start]` to `CW[start+count-1]` in that order do, and changes
nothing else but the model's draw counter (log entry 3); a run past `CWMAX` raises `RANGE` and `ECN = 0` raises `NOT_CONFIGURED`
first (rule R127). -/
def Obligations.RsrunEqualsRsbytes : Prop :=
  ∀ (s : State) (start : CwAddr) (count : Nat),
    (s.regs.ecn ≠ 0 → start.toNat + count ≤ 4096 →
      ∃ t u, exec (.rsrun start count) s = .next t ∧
        feed ((List.range count).map fun i => s.cwByte (start.toNat + i)) s = .next u ∧
        t = { s with regs := u.regs, draws := s.draws + 1, responses := s.responses ++ [⟨.ok, 0⟩] }) ∧
    (s.regs.ecn ≠ 0 → 4096 < start.toNat + count →
      exec (.rsrun start count) s = .next (s.raised .range)) ∧
    (s.regs.ecn = 0 → exec (.rsrun start count) s = .next (s.raised .notConfigured))

/-- `RSST dst` stores `REM[i]` to `CW[dst+i]` for every `i < ECN`, every other byte of `CW` reads as before, and nothing else
changes; a run past `CWMAX` raises `RANGE` and `ECN = 0` raises `NOT_CONFIGURED` first (rule R128). -/
def Obligations.RsstResult : Prop :=
  ∀ (s : State) (dst : CwAddr),
    (s.regs.ecn ≠ 0 → dst.toNat + s.regs.ecn.toNat ≤ 4096 → ∃ t, exec (.rsst dst) s = .next t ∧
      (∀ i < s.regs.ecn.toNat, Memory.read t.cw (dst.toNat + i) = some (entry s.regs.rem i)) ∧
      (∀ a, a < dst.toNat ∨ dst.toNat + s.regs.ecn.toNat ≤ a → Memory.read t.cw a = Memory.read s.cw a) ∧
      t = { s with cw := t.cw, responses := s.responses ++ [⟨.ok, 0⟩] }) ∧
    (s.regs.ecn ≠ 0 → 4096 < dst.toNat + s.regs.ecn.toNat →
      exec (.rsst dst) s = .next (s.raised .range)) ∧
    (s.regs.ecn = 0 → exec (.rsst dst) s = .next (s.raised .notConfigured))

/-- `RSRD pos` answers `REM[pos]` for `pos < ECN` and writes no state; from `ECN` on it raises `RANGE`, and `ECN = 0` raises
`NOT_CONFIGURED` first (rules R129, R273). -/
def Obligations.RsrdResult : Prop :=
  ∀ (s : State) (pos : Nat),
    (pos < s.regs.ecn.toNat →
      exec (.rsrd pos) s = .next (s.answer .ok ((entry s.regs.rem pos).setWidth 32))) ∧
    (s.regs.ecn ≠ 0 → s.regs.ecn.toNat ≤ pos → exec (.rsrd pos) s = .next (s.raised .range)) ∧
    (s.regs.ecn = 0 → exec (.rsrd pos) s = .next (s.raised .notConfigured))

/-- The remainder of rule R130: from `REM = 0`, the data bytes `d_0, ..., d_(k-1)` leave in `REM[0..ECN-1]` the remainder of
`D(X)·X^ECN` on division by the monic `G(X)` whose other coefficients are `GEN[0..ECN-1]`. There is a quotient `q` of `k`
coefficients such that, coefficient by coefficient, `q·G = D·X^ECN xor R`. -/
def Obligations.RemIsPolynomialRemainder : Prop :=
  ∀ (s : State) (data : List Byte),
    s.regs.ecn ≠ 0 → s.regs.ecn.toNat ≤ 30 → (∀ pos < s.regs.ecn.toNat, entry s.regs.rem pos = 0) →
    ∃ t q, feed data s = .next t ∧ q.length = data.length ∧
      ∀ k < data.length + s.regs.ecn.toNat,
        productCoeff q (monic (entriesBelow s.regs.gen s.regs.ecn.toNat)) k =
          (data ++ List.replicate s.regs.ecn.toNat 0).getD k 0 ^^^
            (List.replicate data.length 0 ++ entriesBelow t.regs.rem s.regs.ecn.toNat).getD k 0

/-- Data followed by its EC codewords leaves no remainder: feeding `REM[0..ECN-1]` itself, in order, brings `REM[0..ECN-1]`
back to 0, whatever `GEN` holds (rule R124; the source of `95_test_vectors.md` V12's last sentence). -/
def Obligations.CodewordLeavesNoRemainder : Prop :=
  ∀ s : State, s.regs.ecn ≠ 0 → s.regs.ecn.toNat ≤ 30 →
    ∃ t, feed (entriesBelow s.regs.rem s.regs.ecn.toNat) s = .next t ∧
      (∀ pos < s.regs.ecn.toNat, entry t.regs.rem pos = 0) ∧ t.regs.gen = s.regs.gen ∧ t.regs.ecn = s.regs.ecn

/-- All-zero data gives all-zero EC codewords, whatever `GEN` holds; with `ECN ≥ 1` no `RSBYTE` raises, whatever the data
and `REM` are; and the result depends only on `ECN`, `GEN[0..ECN-1]`, `REM[0..ECN-1]` at the start and the bytes
(rule R132 (b), (c)). -/
def Obligations.ZeroDataGivesZeroRemainder : Prop :=
  (∀ (s : State) (k : Nat), s.regs.ecn ≠ 0 → (∀ pos < 30, entry s.regs.rem pos = 0) →
    ∃ t, feed (List.replicate k 0) s = .next t ∧ t.regs = s.regs) ∧
  (∀ (s : State) (data : List Byte), s.regs.ecn ≠ 0 →
    ∃ t, feed data s = .next t ∧ t.responses = s.responses ++ List.replicate data.length ⟨.ok, 0⟩) ∧
  ∀ (s u : State) (data : List Byte), s.regs.ecn ≠ 0 → u.regs.ecn = s.regs.ecn →
    (∀ pos < s.regs.ecn.toNat, entry u.regs.gen pos = entry s.regs.gen pos) →
    (∀ pos < s.regs.ecn.toNat, entry u.regs.rem pos = entry s.regs.rem pos) →
    ∃ t v, feed data s = .next t ∧ feed data u = .next v ∧
      ∀ pos < s.regs.ecn.toNat, entry v.regs.rem pos = entry t.regs.rem pos

/-- The map from data to remainder is linear (rule R132): the remainder of the XOR of two equally long sequences is the XOR of
their remainders. -/
def Obligations.RemainderIsLinear : Prop :=
  ∀ (s : State) (p q : List Byte), p.length = q.length → s.regs.ecn ≠ 0 → s.regs.ecn.toNat ≤ 30 →
    (∀ pos < 30, entry s.regs.rem pos = 0) →
    ∃ t u v, feed p s = .next t ∧ feed q s = .next u ∧ feed (List.zipWith (· ^^^ ·) p q) s = .next v ∧
      ∀ pos < 30, entry v.regs.rem pos = entry t.regs.rem pos ^^^ entry u.regs.rem pos

/-! ## BCH -/

/-- `bchreduce` (rule R150): the result is shorter than the generator, a value that already is shorter is left alone, and what
is taken away is an XOR of shifted copies of the generator: the result is the remainder over GF(2). -/
def Obligations.BchReduceIsRemainder : Prop :=
  ∀ v g : Nat, g ≠ 0 →
    bchReduce v g < 2 ^ Nat.log2 g ∧ (v < 2 ^ Nat.log2 g → bchReduce v g = v) ∧
    ∃ shifts : List Nat, v ^^^ bchReduce v g = shifts.foldr (fun k acc => (g <<< k) ^^^ acc) 0

/-- `FMTENC` of a legal pair answers the format information, leaves it in `FMT` and changes nothing else; an illegal operand
raises `ILLEGAL_VALUE` (rule R153). -/
def Obligations.FmtencResult : Prop :=
  ∀ (s : State) (ec mask : Nat),
    (ec ≤ 3 → mask ≤ 7 → ∃ t, exec (.fmtenc ec mask) s = .next t ∧ t.regs.fmt.toNat = formatInfo ec mask ∧
      t = { s with regs := { s.regs with fmt := t.regs.fmt },
                   responses := s.responses ++ [⟨.ok, t.regs.fmt.setWidth 32⟩] }) ∧
    (3 < ec ∨ 7 < mask → exec (.fmtenc ec mask) s = .next (s.raised .illegalValue))

/-- `VERENC` of a version 7 to 40 answers the version information, leaves it in `VINFO` and changes nothing else; any other
operand raises `ILLEGAL_VALUE` (rule R154). -/
def Obligations.VerencResult : Prop :=
  ∀ (s : State) (ver : Nat),
    (7 ≤ ver → ver ≤ 40 → ∃ t, exec (.verenc ver) s = .next t ∧ t.regs.vinfo.toNat = versionInfo ver ∧
      t = { s with regs := { s.regs with vinfo := t.regs.vinfo },
                   responses := s.responses ++ [⟨.ok, t.regs.vinfo.setWidth 32⟩] }) ∧
    (ver < 7 ∨ 40 < ver → exec (.verenc ver) s = .next (s.raised .illegalValue))

/-- Format and version information are codewords: without the constant XOR the seed stands above ten remainder bits and the
generator divides the word; the version stands above twelve and its generator divides the word (rules R151, R152). -/
def Obligations.InformationWordsAreCodewords : Prop :=
  (∀ ec ≤ 3, ∀ mask ≤ 7, (formatInfo ec mask ^^^ 0x5412) / 2 ^ 10 = 8 * ec + mask ∧
    bchReduce (formatInfo ec mask ^^^ 0x5412) 0x537 = 0 ∧ formatInfo ec mask ≠ 0) ∧
  (∀ ver, 7 ≤ ver → ver ≤ 40 → versionInfo ver / 2 ^ 12 = ver ∧ bchReduce (versionInfo ver) 0x1F25 = 0)

/-! ## Memory access -/

/-- `CWWR` stores one byte, every other byte reads as before and nothing else changes; `CWRD` answers the byte that is there
(rules R170, R171). Of a byte nothing has written it answers the free value of the draw, and the draw counter advances:
those two are the model's choice (log entry 3) for what rule R71 leaves unspecified. -/
def Obligations.CwwrAndCwrdResults : Prop :=
  ∀ (s : State) (a : CwAddr) (d : Byte),
    (∃ t, exec (.cwwr a d) s = .next t ∧ Memory.read t.cw a.toNat = some d ∧
      (∀ b, b ≠ a.toNat → Memory.read t.cw b = Memory.read s.cw b) ∧
      t = { s with cw := t.cw, responses := s.responses ++ [⟨.ok, 0⟩] }) ∧
    exec (.cwrd a) s = .next { s with
      draws := s.draws + 1
      responses := s.responses ++
        [⟨.ok, ((Memory.read s.cw a.toNat).getD (Config.unwrittenCw s.draws a.toNat)).setWidth 32⟩] }

/-- `MODWR` stores one module, every other module reads as before and nothing else changes; `MODRD` answers the module that is
there; both raise `RANGE` from 177 on (rules R172, R173). The free value of a module nothing has written, and the draw
counter, are the model's choice (log entry 3) for what rule R71 leaves unspecified. -/
def Obligations.ModwrAndModrdResults : Prop :=
  ∀ (s : State) (x y : Nat) (v : Bool),
    (x < 177 → y < 177 → ∃ t, exec (.modwr x y v) s = .next t ∧
      Memory.read t.mod (Memory.cellNumber x y) = some v ∧
      (∀ x' < 177, ∀ y' < 177, ¬ (x' = x ∧ y' = y) →
        Memory.read t.mod (Memory.cellNumber x' y') = Memory.read s.mod (Memory.cellNumber x' y')) ∧
      t = { s with mod := t.mod, responses := s.responses ++ [⟨.ok, 0⟩] }) ∧
    (x < 177 → y < 177 → exec (.modrd x y) s = .next { s with
      draws := s.draws + 1
      responses := s.responses ++ [⟨.ok, if (Memory.read s.mod (Memory.cellNumber x y)).getD
        (Config.unwrittenMod s.draws x y) then 1 else 0⟩] }) ∧
    (177 ≤ x ∨ 177 ≤ y → exec (.modwr x y v) s = .next (s.raised .range) ∧
      exec (.modrd x y) s = .next (s.raised .range))

/-! ## Placement -/

/-- The reserved predicate is the condition of rules R181 and R182, over the integers, with `S = 17 + 4·VER`. -/
def Obligations.ReservedIsTheSpecsCondition : Prop :=
  ∀ (r : Regs) (x y : Nat), reserved r x y = true ↔
    let S : Int := 17 + 4 * r.ver.toNat
    let X : Int := x
    let Y : Int := y
    let aln : Nat → Int := fun i => (entry r.aln i).toNat
    (X ≤ 8 ∧ Y ≤ 8) ∨ (X ≥ S - 8 ∧ Y ≤ 8) ∨ (X ≤ 8 ∧ Y ≥ S - 8) ∨ X = 6 ∨ Y = 6 ∨
    (r.ver.toNat ≥ 7 ∧ X ≤ 5 ∧ S - 11 ≤ Y ∧ Y ≤ S - 9) ∨
    (r.ver.toNat ≥ 7 ∧ Y ≤ 5 ∧ S - 11 ≤ X ∧ X ≤ S - 9) ∨
    ∃ i j : Nat, i < r.alncnt.toNat ∧ j < r.alncnt.toNat ∧
      ¬ ((aln i ≤ 8 ∧ aln j ≤ 8) ∨ (S - 9 ≤ aln i ∧ aln i ≤ S + 1 ∧ aln j ≤ 8) ∨
        (aln i ≤ 8 ∧ S - 9 ≤ aln j ∧ aln j ≤ S + 1)) ∧
      |X - aln i| ≤ 2 ∧ |Y - aln j| ≤ 2

/-- The eight mask predicates of rule R183. -/
def Obligations.MaskPredicates : Prop :=
  ∀ x y : Nat,
    (maskPred 0 x y = true ↔ (x + y) % 2 = 0) ∧ (maskPred 1 x y = true ↔ y % 2 = 0) ∧
    (maskPred 2 x y = true ↔ x % 3 = 0) ∧ (maskPred 3 x y = true ↔ (x + y) % 3 = 0) ∧
    (maskPred 4 x y = true ↔ (x / 3 + y / 2) % 2 = 0) ∧
    (maskPred 5 x y = true ↔ (x * y) % 2 + (x * y) % 3 = 0) ∧
    (maskPred 6 x y = true ↔ ((x * y) % 2 + (x * y) % 3) % 2 = 0) ∧
    (maskPred 7 x y = true ↔ ((x + y) % 2 + (x * y) % 3) % 2 = 0)

/-- The traversal of rule R184, place by place, for every legal side: pair number `p`, row step `v`, right column (`c = 0`)
before left (`c = 1`); the first pair is walked upward, the next downward, and so on, and no pair contains column 6. -/
def Obligations.ZigZagPlaceByPlace : Prop :=
  ∀ ver, 1 ≤ ver → ver ≤ 40 →
    (zigZag (17 + 4 * ver)).length = (17 + 4 * ver) * (16 + 4 * ver) ∧
    ∀ p v c, p < 8 + 2 * ver → v < 17 + 4 * ver → c < 2 →
      (zigZag (17 + 4 * ver))[2 * (p * (17 + 4 * ver) + v) + c]? =
        some ((if 6 < 16 + 4 * ver - 2 * p then 16 + 4 * ver - 2 * p else 15 + 4 * ver - 2 * p) - c,
          if p % 2 = 0 then 16 + 4 * ver - v else v)

/-- The traversal visits each module with `x ≠ 6` exactly once and no module with `x = 6` (rule R184). -/
def Obligations.ZigZagVisitsEachModuleOnce : Prop :=
  ∀ ver, 1 ≤ ver → ver ≤ 40 → (zigZag (17 + 4 * ver)).Nodup ∧
    ∀ x y, (x, y) ∈ zigZag (17 + 4 * ver) ↔ x < 17 + 4 * ver ∧ y < 17 + 4 * ver ∧ x ≠ 6

/-- `RSVQ`, `MASKQ` and `RSVCNT` answer the predicate, the mask and the number of data modules, and write no state; `RSVQ`
raises `RANGE` outside the symbol (rules R185 to R187). -/
def Obligations.PlacementQueryResults : Prop :=
  ∀ (s : State) (x y : Nat),
    (x < 17 + 4 * s.regs.ver.toNat → y < 17 + 4 * s.regs.ver.toNat →
      exec (.rsvq x y) s = .next (s.answer .ok (if reserved s.regs x y then 1 else 0))) ∧
    (17 + 4 * s.regs.ver.toNat ≤ x ∨ 17 + 4 * s.regs.ver.toNat ≤ y →
      exec (.rsvq x y) s = .next (s.raised .range)) ∧
    exec (.maskq x y) s = .next (s.answer .ok (if maskPred s.regs.mask.toNat x y then 1 else 0)) ∧
    exec .rsvcnt s = .next (s.answer .ok (BitVec.ofNat 32
      ((Finset.range (17 + 4 * s.regs.ver.toNat) ×ˢ Finset.range (17 + 4 * s.regs.ver.toNat)).filter
        fun p => reserved s.regs p.1 p.2 = false).card))

/-- `PLACE` with more codeword bits than data modules raises `PLACE_MISMATCH` in both modes; with fewer it does unless `REMOK`
is set and at most seven modules are left over. It then writes neither `MOD` nor `BITCNT` (rules R188, R189). -/
def Obligations.PlaceMismatchIsRefused : Prop :=
  ∀ s : State,
    freeCount s.regs < 8 * s.regs.ncw.toNat ∨
      (8 * s.regs.ncw.toNat < freeCount s.regs ∧
        (s.regs.ctrl.getLsbD 1 = false ∨ 8 * s.regs.ncw.toNat + 7 < freeCount s.regs)) →
    exec .place s = .next (s.raised .placeMismatch)

/-- A successful `PLACE` (rules R188, R190): the `j`-th data module on the traversal holds stream bit `j`, or 0 when the stream
is exhausted, XORed with the mask predicate; every other cell of `MOD` reads as before; `BITCNT` and the answer are
`8·NCW`; nothing else changes but the model's draw counter (log entry 3). It holds for `NCW = 0` too where the alignment
list leaves at most seven data modules: there R188's remark says that `PLACE` raises, and the model follows R188's
pseudo-code (log entry 10). -/
def Obligations.PlaceWritesMaskedStream : Prop :=
  ∀ s : State, 1 ≤ s.regs.ver.toNat → s.regs.ver.toNat ≤ 40 → PlaceAccepted s.regs →
    ∃ t, exec .place s = .next t ∧
      (∀ j x y, (dataModules s.regs)[j]? = some (x, y) →
        Memory.read t.mod (Memory.cellNumber x y) =
          some ((if j < 8 * s.regs.ncw.toNat then (s.cwByte (j / 8)).getLsbD (7 - j % 8) else false) ^^
            maskPred s.regs.mask.toNat x y)) ∧
      (∀ x < 177, ∀ y < 177, (x, y) ∉ dataModules s.regs →
        Memory.read t.mod (Memory.cellNumber x y) = Memory.read s.mod (Memory.cellNumber x y)) ∧
      t = { s with
        regs := { s.regs with bitcnt := BitVec.ofNat 16 (8 * s.regs.ncw.toNat) }
        mod := t.mod, draws := s.draws + 1
        responses := s.responses ++ [⟨.ok, BitVec.ofNat 32 (8 * s.regs.ncw.toNat)⟩] }

/-- Every module of the symbol is exactly one of reserved and data, and the data modules are as many as `RSVCNT` counts, each
reached once (rule R190 (b)). -/
def Obligations.DataModulesAreTheUnreserved : Prop :=
  ∀ r : Regs, 1 ≤ r.ver.toNat → r.ver.toNat ≤ 40 →
    (dataModules r).Nodup ∧ (dataModules r).length = freeCount r ∧
    ∀ x y, (x, y) ∈ dataModules r ↔ x < r.size ∧ y < r.size ∧ reserved r x y = false

/-- Placing under two masks gives matrices that differ exactly at the data modules where the two predicates differ
(rule R190 (d)). -/
def Obligations.MasksDifferWherePredicatesDo : Prop :=
  ∀ (s t u : State) (m : BitVec 3), 1 ≤ s.regs.ver.toNat → s.regs.ver.toNat ≤ 40 → PlaceAccepted s.regs →
    exec .place s = .next t → exec .place { s with regs := { s.regs with mask := m } } = .next u →
    ∀ x < 177, ∀ y < 177,
      (Memory.read t.mod (Memory.cellNumber x y) ≠ Memory.read u.mod (Memory.cellNumber x y) ↔
        (x, y) ∈ dataModules s.regs ∧ maskPred s.regs.mask.toNat x y ≠ maskPred m.toNat x y)

/-- Drawing a structural module and placing commute: a `MODWR` to a reserved module and `PLACE` may be done in either order
(rules R191, R307 (e)). -/
def Obligations.DrawingAndPlacingCommute : Prop :=
  ∀ (s a b c d : State) (x y : Nat) (v : Bool), s.Inv →
    x < s.regs.size → y < s.regs.size → reserved s.regs x y = true → PlaceAccepted s.regs →
    exec (.modwr x y v) s = .next a → exec .place a = .next b →
    exec .place s = .next c → exec (.modwr x y v) c = .next d →
    b.mod = d.mod ∧ b.regs = d.regs ∧ b.cw = d.cw
end

