-- ==== Sys2Proof/Laws/State.lean ====
section
/-! SUPPORT. One lemma per field per update of the state, true by `rfl` and tagged `@[simp]`, so that no later proof
unfolds a record update. -/

namespace Sys2Proof.Machine.State

variable (s : State) (st : Status) (d w : Word) (r : Regs) (a x y : Nat) (b : Byte) (bs : List Byte) (v : Bool)

@[simp] theorem answer_regs : (s.answer st d).regs = s.regs := rfl
@[simp] theorem answer_cw : (s.answer st d).cw = s.cw := rfl
@[simp] theorem answer_mod : (s.answer st d).mod = s.mod := rfl
@[simp] theorem answer_cmdWord : (s.answer st d).cmdWord = s.cmdWord := rfl
@[simp] theorem answer_pending : (s.answer st d).pending = s.pending := rfl
@[simp] theorem answer_responses : (s.answer st d).responses = s.responses ++ [⟨st, d⟩] := rfl
@[simp] theorem answer_draws : (s.answer st d).draws = s.draws := rfl

@[simp] theorem setRegs_regs : (s.setRegs r).regs = r := rfl
@[simp] theorem setRegs_cw : (s.setRegs r).cw = s.cw := rfl
@[simp] theorem setRegs_mod : (s.setRegs r).mod = s.mod := rfl
@[simp] theorem setRegs_cmdWord : (s.setRegs r).cmdWord = s.cmdWord := rfl
@[simp] theorem setRegs_pending : (s.setRegs r).pending = s.pending := rfl
@[simp] theorem setRegs_responses : (s.setRegs r).responses = s.responses := rfl
@[simp] theorem setRegs_draws : (s.setRegs r).draws = s.draws := rfl

@[simp] theorem drawn_regs : s.drawn.regs = s.regs := rfl
@[simp] theorem drawn_cw : s.drawn.cw = s.cw := rfl
@[simp] theorem drawn_mod : s.drawn.mod = s.mod := rfl
@[simp] theorem drawn_cmdWord : s.drawn.cmdWord = s.cmdWord := rfl
@[simp] theorem drawn_pending : s.drawn.pending = s.pending := rfl
@[simp] theorem drawn_responses : s.drawn.responses = s.responses := rfl
@[simp] theorem drawn_draws : s.drawn.draws = s.draws + 1 := rfl

@[simp] theorem setCwByte_regs : (s.setCwByte a b).regs = s.regs := rfl
@[simp] theorem setCwByte_cw : (s.setCwByte a b).cw = Memory.write s.cw a b := rfl
@[simp] theorem setCwByte_mod : (s.setCwByte a b).mod = s.mod := rfl
@[simp] theorem setCwByte_cmdWord : (s.setCwByte a b).cmdWord = s.cmdWord := rfl
@[simp] theorem setCwByte_pending : (s.setCwByte a b).pending = s.pending := rfl
@[simp] theorem setCwByte_responses : (s.setCwByte a b).responses = s.responses := rfl
@[simp] theorem setCwByte_draws : (s.setCwByte a b).draws = s.draws := rfl

@[simp] theorem setCwRun_regs : (s.setCwRun a bs).regs = s.regs := rfl
@[simp] theorem setCwRun_cw : (s.setCwRun a bs).cw = Memory.writeRun s.cw a bs := rfl
@[simp] theorem setCwRun_mod : (s.setCwRun a bs).mod = s.mod := rfl
@[simp] theorem setCwRun_cmdWord : (s.setCwRun a bs).cmdWord = s.cmdWord := rfl
@[simp] theorem setCwRun_pending : (s.setCwRun a bs).pending = s.pending := rfl
@[simp] theorem setCwRun_responses : (s.setCwRun a bs).responses = s.responses := rfl
@[simp] theorem setCwRun_draws : (s.setCwRun a bs).draws = s.draws := rfl

@[simp] theorem setModBit_regs : (s.setModBit x y v).regs = s.regs := rfl
@[simp] theorem setModBit_cw : (s.setModBit x y v).cw = s.cw := rfl
@[simp] theorem setModBit_mod :
    (s.setModBit x y v).mod = Memory.write s.mod (Memory.cellNumber x y) v := rfl
@[simp] theorem setModBit_cmdWord : (s.setModBit x y v).cmdWord = s.cmdWord := rfl
@[simp] theorem setModBit_pending : (s.setModBit x y v).pending = s.pending := rfl
@[simp] theorem setModBit_responses : (s.setModBit x y v).responses = s.responses := rfl
@[simp] theorem setModBit_draws : (s.setModBit x y v).draws = s.draws := rfl

@[simp] theorem softReset_regs : s.softReset.regs = Regs.reset := rfl
@[simp] theorem softReset_cw : s.softReset.cw = s.cw := rfl
@[simp] theorem softReset_mod : s.softReset.mod = s.mod := rfl
@[simp] theorem softReset_responses : s.softReset.responses = s.responses := rfl
@[simp] theorem softReset_pending : s.softReset.pending = s.pending := rfl
@[simp] theorem softReset_cmdWord : s.softReset.cmdWord = s.cmdWord := rfl
@[simp] theorem softReset_draws : s.softReset.draws = s.draws := rfl

@[simp] theorem hardReset_regs : s.hardReset.regs = Regs.reset := rfl
@[simp] theorem hardReset_cw : s.hardReset.cw = [] := rfl
@[simp] theorem hardReset_mod : s.hardReset.mod = [] := rfl
@[simp] theorem hardReset_responses : s.hardReset.responses = s.responses := rfl
@[simp] theorem hardReset_pending : s.hardReset.pending = s.pending := rfl
@[simp] theorem hardReset_cmdWord : s.hardReset.cmdWord = 0 := rfl
@[simp] theorem hardReset_draws : s.hardReset.draws = s.draws := rfl

@[simp] theorem present_pending : (s.present w).pending = .command w :: s.pending := rfl
@[simp] theorem present_regs : (s.present w).regs = s.regs := rfl
@[simp] theorem present_cw : (s.present w).cw = s.cw := rfl
@[simp] theorem present_mod : (s.present w).mod = s.mod := rfl
@[simp] theorem present_responses : (s.present w).responses = s.responses := rfl
@[simp] theorem present_cmdWord : (s.present w).cmdWord = s.cmdWord := rfl
@[simp] theorem present_draws : (s.present w).draws = s.draws := rfl

end Sys2Proof.Machine.State
end

