-- ==== Sys2Proof/Laws/Ops.lean ====
section
/-! SUPPORT. One lemma per shared operation that says everything it can do: answering, raising, the lock, the register
files, the port. The provers cite these instead of unfolding the operations. -/

namespace Sys2Proof.Machine

/-! ## Register files -/

theorem entry_eq {n : Nat} (file : Vector Byte n) (i : Nat) (h : i < n) : entry file i = file[i] := by
  simp [entry, Vector.getD, h]

theorem entry_outside {n : Nat} (file : Vector Byte n) (i : Nat) (h : n ≤ i) : entry file i = 0 := by
  simp [entry, Vector.getD, Nat.not_lt.mpr h]

@[simp] theorem entry_ofFn {n : Nat} (f : Fin n → Byte) (i : Nat) (h : i < n) :
    entry (Vector.ofFn f) i = f ⟨i, h⟩ := by
  rw [entry_eq _ _ h, Vector.getElem_ofFn]

@[simp] theorem entry_replicate (n i : Nat) : entry (Vector.replicate n 0#8) i = 0#8 := by
  by_cases h : i < n
  · rw [entry_eq _ _ h, Vector.getElem_replicate]
  · exact entry_outside _ _ (by omega)

theorem entry_setEntry {n : Nat} (file : Vector Byte n) (i j : Nat) (v : Byte) (hi : i < n) :
    entry (setEntry file i v) j = if j = i then v else entry file j := by
  by_cases hj : j < n
  · rw [entry_eq _ _ hj, entry_eq _ _ hj]
    simp only [setEntry, Vector.getElem_setIfInBounds]
    by_cases h : i = j <;> simp [h, eq_comm]
  · rw [entry_outside _ _ (by omega), entry_outside _ _ (by omega), if_neg (by omega)]

/-- Register files that hold the same entries are the same. -/
theorem file_ext {n : Nat} {f g : Vector Byte n} (h : ∀ i < n, entry f i = entry g i) : f = g := by
  ext i hi
  have := h i hi
  rw [entry_eq _ _ hi, entry_eq _ _ hi] at this
  rw [this]

@[simp] theorem entriesBelow_length {n : Nat} (file : Vector Byte n) (count : Nat) :
    (entriesBelow file count).length = count := by
  simp [entriesBelow]

theorem entriesBelow_getElem? {n : Nat} (file : Vector Byte n) (count i : Nat) (h : i < count) :
    (entriesBelow file count)[i]? = some (entry file i) := by
  simp [entriesBelow, h]

/-! ## Answering and raising -/

@[simp] theorem respond_eq (d : Word) (s : State) : respond d s = .next (s.answer .ok d) := rfl

@[simp] theorem done_eq (s : State) : done s = .next (s.answer .ok 0) := rfl

@[simp] theorem lockedOut_eq (s : State) : lockedOut s = .next (s.answer .locked 0) := rfl

theorem raise_eq (c : Cause) (s : State) :
    raise c s = .next ((s.setRegs (s.regs.recordError c s.cmdWord)).answer (.error c) 0) := rfl

theorem faulted_iff (r : Regs) : r.faulted = true ↔ r.err ≠ 0 := by simp [Regs.faulted]

theorem faulted_eq_false_iff (r : Regs) : r.faulted = false ↔ r.err = 0 := by simp [Regs.faulted]

theorem recordError_of_faulted (r : Regs) (c : Cause) (w : Word) (h : r.err ≠ 0) : r.recordError c w = r :=
  if_pos ((faulted_iff r).2 h)

theorem recordError_of_running (r : Regs) (c : Cause) (w : Word) (h : r.err = 0) :
    r.recordError c w = { r with err := c.code, errcmd := w } :=
  if_neg (by simp [Regs.faulted, h])

/-- Raising changes no register but the two error registers. -/
theorem recordError_frame (r : Regs) (c : Cause) (w : Word) :
    r.recordError c w = { r with err := (r.recordError c w).err, errcmd := (r.recordError c w).errcmd } := by
  unfold Regs.recordError
  split_ifs <;> rfl

/-- Everything `raise` can do, in the terms of the claims. -/
theorem raise_eq_raised (c : Cause) (s : State) : raise c s = .next (s.raised c) := by
  by_cases h : s.regs.err = 0
  · rw [raise_eq, recordError_of_running _ _ _ h]; simp [State.raised, h, State.setRegs, State.answer]
  · rw [raise_eq, recordError_of_faulted _ _ _ h]; simp only [State.raised, if_neg h]; rfl

theorem Cause.code_ne_zero (c : Cause) : c.code ≠ 0 := by cases c <;> decide

theorem Cause.code_le (c : Cause) : c.code.toNat ≤ 6 := by cases c <;> decide

/-! ## Memory coordinates -/

theorem outsideMod_iff (x y : Nat) : outsideMod x y = true ↔ 177 ≤ x ∨ 177 ≤ y := by simp [outsideMod]

theorem outsideMod_eq_false_iff (x y : Nat) : outsideMod x y = false ↔ x < 177 ∧ y < 177 := by simp [outsideMod]

/-! ## The port -/

theorem execWord_of_locked (w : Word) (s : State) (h : s.locks w = true) :
    execWord w s = .next (s.answer .locked 0) := by
  simp [execWord, h]

theorem execWord_of_illegal (w : Word) (s : State) (h : s.locks w = false) (hd : decode w = none) :
    execWord w s = raise .illegalCmd { s with cmdWord := w } := by
  simp [execWord, h, hd]

theorem execWord_of_decoded (w : Word) (s : State) (i : Instr) (h : s.locks w = false) (hd : decode w = some i) :
    execWord w s = exec i { s with cmdWord := w } := by
  simp [execWord, h, hd]

theorem takeInput_cons (s : State) (input : HostInput) (rest : List HostInput) (h : s.pending = input :: rest) :
    takeInput s = acceptInput input { s with pending := rest } := by
  simp [takeInput, h]

theorem takeInput_nil (s : State) (h : s.pending = []) : takeInput s = .next s := by
  simp [takeInput, h]

end Sys2Proof.Machine
end

