-- ==== Sys2Proof/Laws/Exec.lean ====
section
/-! SUPPORT. What a command can do, said once for all 27: it raises one of its own errors and is then `s.raised c`, or it
answers `OK`. Both ways it ends in a next state. -/

namespace Sys2Proof.Machine

/-- What a command that is carried out leaves alone whichever command it is: it appends one `OK` response, the host's inputs
and the word are untouched, and the draw counter does not fall. -/
structure Carried (s t : State) : Prop where
  response : ∃ d, t.responses = s.responses ++ [⟨.ok, d⟩]
  pending : t.pending = s.pending
  cmdWord : t.cmdWord = s.cmdWord
  draws : s.draws ≤ t.draws

/-- `respond` carries a command out on a state that differs from `s` in registers, memories and draws alone. -/
theorem respond_carried {s u : State} (d : Word) (hr : u.responses = s.responses) (hp : u.pending = s.pending)
    (hc : u.cmdWord = s.cmdWord) (hd : s.draws ≤ u.draws) : ∃ t, respond d u = .next t ∧ Carried s t :=
  ⟨_, rfl, ⟨d, by simp [hr]⟩, by simp [hp], by simp [hc], by simpa using hd⟩

/-- `done` likewise. -/
theorem done_carried {s u : State} (hr : u.responses = s.responses) (hp : u.pending = s.pending)
    (hc : u.cmdWord = s.cmdWord) (hd : s.draws ≤ u.draws) : ∃ t, done u = .next t ∧ Carried s t :=
  respond_carried 0 hr hp hc hd

/-- One command: an error of its own, or carried out. -/
theorem exec_cases (i : Instr) (s : State) :
    (∃ c ∈ ownErrors i, exec i s = .next (s.raised c)) ∨ ∃ t, exec i s = .next t ∧ Carried s t := by
  cases i <;> simp only [exec]
  case nop => unfold execNop; right; apply done_carried <;> simp
  case srst => unfold execSrst; right; apply done_carried <;> simp
  case errclr => unfold execErrclr; right; apply done_carried <;> simp
  case csrrd =>
    unfold execCsrrd; split
    · left; refine ⟨_, ?_, raise_eq_raised _ _⟩; simp [ownErrors]
    · right; apply respond_carried _ <;> simp
  case csrwr =>
    unfold execCsrwr; split
    · left; refine ⟨_, ?_, raise_eq_raised _ _⟩; simp [ownErrors]
    · split_ifs
      · left; refine ⟨_, ?_, raise_eq_raised _ _⟩; simp [ownErrors]
      · right; apply done_carried <;> simp
      · left; refine ⟨_, ?_, raise_eq_raised _ _⟩; simp [ownErrors]
  case gfexp =>
    unfold execGfexp; split_ifs
    · left; refine ⟨_, ?_, raise_eq_raised _ _⟩; simp [ownErrors]
    · right; apply respond_carried _ <;> simp
  case gflog =>
    unfold execGflog; split_ifs
    · left; refine ⟨_, ?_, raise_eq_raised _ _⟩; simp [ownErrors]
    · right; apply respond_carried _ <;> simp
  case gfmul => unfold execGfmul toAcc; right; apply respond_carried _ <;> simp
  case gfmac => unfold execGfmac toAcc; right; apply respond_carried _ <;> simp
  case rsinit =>
    unfold execRsinit; split_ifs
    · left; refine ⟨_, ?_, raise_eq_raised _ _⟩; simp [ownErrors]
    · right; apply done_carried <;> simp
  case genwr =>
    unfold execGenwr; split_ifs
    · left; refine ⟨_, ?_, raise_eq_raised _ _⟩; simp [ownErrors]
    · right; apply done_carried <;> simp
  case genrd =>
    unfold execGenrd; split_ifs
    · left; refine ⟨_, ?_, raise_eq_raised _ _⟩; simp [ownErrors]
    · right; apply respond_carried _ <;> simp
  case genstd =>
    unfold execGenstd; split_ifs
    · left; refine ⟨_, ?_, raise_eq_raised _ _⟩; simp [ownErrors]
    · right; apply done_carried <;> simp
  case rsbyte =>
    unfold execRsbyte; split_ifs
    · left; refine ⟨_, ?_, raise_eq_raised _ _⟩; simp [ownErrors]
    · right; apply done_carried <;> simp
  case rsrd =>
    unfold execRsrd; split_ifs
    · left; refine ⟨_, ?_, raise_eq_raised _ _⟩; simp [ownErrors]
    · left; refine ⟨_, ?_, raise_eq_raised _ _⟩; simp [ownErrors]
    · right; apply respond_carried _ <;> simp
  case rsrun =>
    unfold execRsrun; split_ifs
    · left; refine ⟨_, ?_, raise_eq_raised _ _⟩; simp [ownErrors]
    · left; refine ⟨_, ?_, raise_eq_raised _ _⟩; simp [ownErrors]
    · right; apply done_carried <;> simp
  case rsst =>
    simp only [execRsst]; split_ifs
    · left; refine ⟨_, ?_, raise_eq_raised _ _⟩; simp [ownErrors]
    · left; refine ⟨_, ?_, raise_eq_raised _ _⟩; simp [ownErrors]
    · right; apply done_carried <;> simp
  case fmtenc =>
    unfold execFmtenc; split_ifs
    · left; refine ⟨_, ?_, raise_eq_raised _ _⟩; simp [ownErrors]
    · right; apply respond_carried _ <;> simp
  case verenc =>
    unfold execVerenc; split_ifs
    · left; refine ⟨_, ?_, raise_eq_raised _ _⟩; simp [ownErrors]
    · right; apply respond_carried _ <;> simp
  case cwwr => unfold execCwwr; right; apply done_carried <;> simp
  case cwrd => unfold execCwrd; right; apply respond_carried _ <;> simp
  case modwr =>
    unfold execModwr; split_ifs
    · left; refine ⟨_, ?_, raise_eq_raised _ _⟩; simp [ownErrors]
    · right; apply done_carried <;> simp
  case modrd =>
    unfold execModrd; split_ifs
    · left; refine ⟨_, ?_, raise_eq_raised _ _⟩; simp [ownErrors]
    · right; apply respond_carried _ <;> simp
  case rsvq =>
    unfold execRsvq; split_ifs
    · left; refine ⟨_, ?_, raise_eq_raised _ _⟩; simp [ownErrors]
    · right; apply respond_carried _ <;> simp
  case maskq => unfold execMaskq; right; apply respond_carried _ <;> simp
  case rsvcnt => unfold execRsvcnt; right; apply respond_carried _ <;> simp
  case place =>
    unfold execPlace; split_ifs
    · left; refine ⟨_, ?_, raise_eq_raised _ _⟩; simp [ownErrors]
    · right; apply respond_carried _ <;> simp

/-- Every command ends in a next state. -/
theorem exec_next (i : Instr) (s : State) : ∃ t, exec i s = .next t := by
  obtain ⟨c, -, h⟩ | ⟨t, h, -⟩ := exec_cases i s
  exacts [⟨_, h⟩, ⟨t, h⟩]

/-! ## Feeding data bytes (rule R131) -/

theorem execRsbyte_of_configured (d : Byte) (s : State) (h : s.regs.ecn ≠ 0) :
    exec (.rsbyte d) s = .next ((s.setRegs (rsStep s.regs d)).answer .ok 0) := by
  simp only [exec, execRsbyte, if_neg h, done_eq]

theorem feed_nil (s : State) : feed [] s = .next s := rfl

theorem feed_cons (d : Byte) (ds : List Byte) (s : State) (h : s.regs.ecn ≠ 0) :
    feed (d :: ds) s = feed ds ((s.setRegs (rsStep s.regs d)).answer .ok 0) := by
  simp only [feed, List.map_cons, execAll, execRsbyte_of_configured d s h]

@[simp] theorem rsStep_ecn (r : Regs) (d : Byte) : (rsStep r d).ecn = r.ecn := by simp only [rsStep]
@[simp] theorem rsStep_gen (r : Regs) (d : Byte) : (rsStep r d).gen = r.gen := by simp only [rsStep]

/-- Entry by entry, one step of the remainder register (rule R124). -/
theorem entry_rsStep (r : Regs) (d : Byte) (pos : Nat) (h : pos < Config.ecMax) :
    entry (rsStep r d).rem pos = rsStepEntry r (rsFeedback r d) pos := entry_ofFn _ _ h

end Sys2Proof.Machine
end

