-- ==== Sys2Proof/Machine/Driver.lean ====
section
/-! DEFINITION. The host's side of one encode (`49_host_pipeline.md`, rules R240 to R252): classification, packing, version
choice, the commands it sends and the modules it draws. Rule R5 leaves all of this out of the block: nothing in the machine uses
this file, and every command it sends goes through the port like any other. What the source leaves out and rules
R242 to R252 supply from general knowledge is followed as those rules give it. -/

namespace Sys2Proof.Machine.Driver

/-! ## Mode selector and bit encoder (rules R241 to R243) -/

open Config (Mode)

/-- The value of a decimal digit. -/
def digitValue (c : Char) : Option Nat := if '0' ≤ c ∧ c ≤ '9' then some (c.toNat - '0'.toNat) else none

/-- The character value table of the alphanumeric mode (rule R242). -/
def alphanumericValue (c : Char) : Option Nat :=
  if '0' ≤ c ∧ c ≤ '9' then some (c.toNat - '0'.toNat)
  else if 'A' ≤ c ∧ c ≤ 'Z' then some (c.toNat - 'A'.toNat + 10)
  else
    match c with
    | ' ' => some 36
    | '$' => some 37
    | '%' => some 38
    | '*' => some 39
    | '+' => some 40
    | '-' => some 41
    | '.' => some 42
    | '/' => some 43
    | ':' => some 44
    | _ => none

/-- Classification, the auto-detected mode (rule R241). It takes no requested mode: how the two go together is
`chosenMode` and log entry 16. Which mode an empty payload has the source does not say; it is a free value (log
entry 9). -/
def classify (payload : List Char) : Mode :=
  if payload = [] then Config.emptyPayloadMode
  else if payload.all fun c => (digitValue c).isSome then .numeric
  else if payload.all fun c => (alphanumericValue c).isSome then .alphanumeric
  else .byte

/-- `n` as `width` bits, most significant first (rule R242). -/
def toBits (width n : Nat) : List Bool := (List.range width).map fun i => n.testBit (width - 1 - i)

/-- The 4-bit mode indicator (rule R242). -/
def modeIndicator : Mode → Nat
  | .numeric => 0b0001
  | .alphanumeric => 0b0010
  | .byte => 0b0100

/-- The width of the length field in the tiers 1–9, 10–26, 27–40 (rule R242). -/
def lengthWidth (mode : Mode) (version : Nat) : Nat :=
  match mode with
  | .numeric => if version ≤ 9 then 10 else if version ≤ 26 then 12 else 14
  | .alphanumeric => if version ≤ 9 then 9 else if version ≤ 26 then 11 else 13
  | .byte => if version ≤ 9 then 8 else 16

/-- "3-digit groups→10 bits; 2-digit remainder→7 bits; 1-digit remainder→4 bits" (rule R242). -/
def packNumeric : List Nat → List Bool
  | a :: b :: c :: rest => toBits 10 (100 * a + 10 * b + c) ++ packNumeric rest
  | [a, b] => toBits 7 (10 * a + b)
  | [a] => toBits 4 a
  | [] => []

/-- "pairs→ value=first·45+second, 11 bits; lone trailing char→6 bits" (rule R242). -/
def packAlphanumeric : List Nat → List Bool
  | a :: b :: rest => toBits 11 (45 * a + b) ++ packAlphanumeric rest
  | [a] => toBits 6 a
  | [] => []

/-- "each byte→8 bits verbatim" (rule R242). -/
def packBytes (bs : List Byte) : List Bool := bs.flatMap fun b => toBits 8 b.toNat

/-- A supported charset: the bytes of a text, or none where the text does not go into it (rule R242: "byte/charset
mismatch"). -/
abbrev Charset := List Char → Option (List Byte)

/-- The default charset (rule R241). -/
def utf8 : Charset := fun cs => some ((cs.flatMap String.utf8EncodeChar).map UInt8.toBitVec)

/-- The charset of one encode: "caller-specified charset, default UTF-8" (rule R241). `charsets` says which charsets
the host supports, and the result is none for a requested one that it does not. -/
def requestedCharset (charsets : String → Option Charset) : Option String → Option Charset
  | none => some utf8
  | some name => charsets name

/-- How packing can fail (rule R242). -/
inductive PackFailure where
  /-- "An internal contract violation": a character the Numeric or Alphanumeric mode does not have. It does not happen in
  the mode the host chooses (`packPayload_chosen` in `Laws/Driver.lean`). -/
  | contractViolation
  /-- "Unsupported requested charset fails at byte-mode entry". Under which of the source's failures (rule R255) the host
  reports it, no rule says; DESIGN CHOICE: it has a name of its own (log entry 18). -/
  | unsupportedCharset
  /-- InvalidCharacter: "byte/charset mismatch during byte-mode packing". -/
  | invalidCharacter
  deriving DecidableEq, Repr

/-- Entering byte mode: an unsupported charset fails here, whatever the payload is; then the payload's bytes
(rule R242). -/
def enterByteMode (charset : Option Charset) (payload : List Char) : Except PackFailure (List Byte) :=
  match charset with
  | none => .error .unsupportedCharset
  | some encodeText =>
    match encodeText payload with
    | none => .error .invalidCharacter
    | some bs => .ok bs

/-- The value of every character, where the mode has them all. -/
def charValues (value : Char → Option Nat) (payload : List Char) : Except PackFailure (List Nat) :=
  match payload.mapM value with
  | none => .error .contractViolation
  | some vs => .ok vs

/-- The length of the payload and its packed bits, or why there are none (rule R242). Only byte mode looks at the
charset. -/
def packPayload (charset : Option Charset) (mode : Mode) (payload : List Char) : Except PackFailure (Nat × List Bool) :=
  match mode with
  | .numeric => (charValues digitValue payload).map fun vs => (vs.length, packNumeric vs)
  | .alphanumeric => (charValues alphanumericValue payload).map fun vs => (vs.length, packAlphanumeric vs)
  | .byte => (enterByteMode charset payload).map fun bs => (bs.length, packBytes bs)

/-- Whether a mode can represent a payload: no character of it is outside the mode, or outside the charset in byte mode. With
an unsupported charset byte mode is held able, so that asking for it may fail at its entry (log entry 16). -/
def representable (charset : Option Charset) (mode : Mode) (payload : List Char) : Bool :=
  match packPayload charset mode payload with
  | .ok _ => true
  | .error why => decide (why = .unsupportedCharset)

/-- The one mode of the whole payload when the configuration layer may carry an "optional mode override" (rule R241). A
requested mode that cannot represent the payload loses to auto-detection, which is the one case the source gives
("Test" with Numeric requested). Beyond it the source does not say which of the two wins: DESIGN CHOICE, a free value
decides (log entry 16). -/
def chosenMode (charset : Option Charset) (requested : Option Mode) (payload : List Char) : Mode :=
  match requested with
  | none => classify payload
  | some mode =>
    if representable charset mode payload && Config.requestGoesFirst mode payload then mode else classify payload

/-- Mode indicator, length field, packed payload (rule R242). -/
def payloadBits (mode : Mode) (version : Nat) (packed : Nat × List Bool) : List Bool :=
  toBits 4 (modeIndicator mode) ++ toBits (lengthWidth mode version) packed.1 ++ packed.2

/-- The number made of bits, most significant first. -/
def fromBits (bs : List Bool) : Nat := bs.foldl (fun n b => 2 * n + b.toNat) 0

/-- `count` codewords cut from a bit string, zeros beyond its end. -/
def toCodewords : Nat → List Bool → List Byte
  | 0, _ => []
  | count + 1, bs => BitVec.ofNat 8 (fromBits ((List.range 8).map fun i => bs.getD i false)) :: toCodewords count (bs.drop 8)

/-- `count` pad codewords, `0xEC` and `0x11` in turn (rule R243). -/
def padCodewords (count : Nat) : List Byte := (List.range count).map fun i => if i % 2 = 0 then 0xEC else 0x11

/-- Completion to `capacity` data codewords (rule R243): up to four 0 bits, 0 bits to the next byte, then pad codewords.
`none` if the bits do not fit. -/
def complete (capacity : Nat) (bs : List Bool) : Option (List Byte) :=
  if 8 * capacity < bs.length then none
  else
    let terminated := Nat.min (bs.length + 4) (8 * capacity)
    let used := (terminated + 7) / 8
    some (toCodewords used bs ++ padCodewords (capacity - used))

/-- The data codewords of a packed payload in a mode (rules R242, R243). -/
def dataCodewords (mode : Mode) (version capacity : Nat) (packed : Nat × List Bool) : Option (List Byte) :=
  complete capacity (payloadBits mode version packed)

/-- The smallest version whose capacity cell is not less than the length (rule R244, conflict C10); `none` is the failure
CapacityExceeded. The capacity table is not in the source and so an argument. -/
def resolveVersion (capacity : Nat → Nat) (length : Nat) : Option Nat :=
  ((List.range 40).map (· + 1)).find? fun version => decide (capacity version ≥ length)

/-! ## Structural modules (rules R246 to R252). `side` is `S`. -/

/-- Draw the modules of a list, each with its value. -/
def draw (modules : List ((Nat × Nat) × Bool)) : List Instr := modules.map fun m => .modwr m.1.1 m.1.2 m.2

/-- The columns and rows below `w` and `h`, as coordinates. -/
def rectangle (w h : Nat) : List (Nat × Nat) := (List.range h).flatMap fun y => (List.range w).map fun x => (x, y)

/-- `|a - b|`. -/
def distance (a b : Nat) : Nat := (a - b) + (b - a)

/-- The 7×7 finder whose top-left corner is `(ox, oy)` (rule R247). -/
def finder (ox oy : Nat) : List ((Nat × Nat) × Bool) :=
  (rectangle 7 7).map fun (dx, dy) =>
    let d := max (distance dx 3) (distance dy 3)
    ((ox + dx, oy + dy), d == 3 || decide (d ≤ 1))

/-- The separator lines around the three finders, all inactive (rule R247). -/
def separators (side : Nat) : List ((Nat × Nat) × Bool) :=
  ((List.range 8).flatMap fun i =>
    [(7, i), (i, 7), (side - 8, i), (side - 1 - i, 7), (i, side - 8), (7, side - 1 - i)]).map fun p => (p, false)

/-- The timing lines between the finders, active at even places (rule R248). -/
def timing (side : Nat) : List ((Nat × Nat) × Bool) :=
  (List.range (side - 16)).flatMap fun k =>
    let i := k + 8
    [((i, 6), i % 2 == 0), ((6, i), i % 2 == 0)]

/-- The two copies of the format information `f` (rule R250). -/
def formatStrips (side f : Nat) : List ((Nat × Nat) × Bool) :=
  let bit := fun i => f.testBit i
  let low := List.range 8
  ((List.range 6).map fun i => ((8, i), bit i)) ++ [((8, 7), bit 6), ((8, 8), bit 7), ((7, 8), bit 8)]
    ++ ((List.range 6).map fun k => ((14 - (k + 9), 8), bit (k + 9)))
    ++ (low.map fun i => ((side - 1 - i, 8), bit i))
    ++ ((List.range 7).map fun k => ((8, side - 15 + (k + 8)), bit (k + 8)))

/-- The two blocks of the version information `v` (rule R251). -/
def versionBlocks (side v : Nat) : List ((Nat × Nat) × Bool) :=
  (List.range 18).flatMap fun i =>
    [((i / 3, side - 11 + i % 3), v.testBit i), ((side - 11 + i % 3, i / 3), v.testBit i)]

/-- The alignment patterns at every kept centre (rule R252). -/
def alignmentPatterns (side : Nat) (coords : List Nat) : List ((Nat × Nat) × Bool) :=
  (coords.flatMap fun cx => coords.map fun cy => (cx, cy)).flatMap fun (cx, cy) =>
    if alnKept side cx cy then
      (rectangle 5 5).map fun (dx, dy) =>
        let d := max (distance dx 2) (distance dy 2)
        ((cx + dx - 2, cy + dy - 2), d == 2 || d == 0)
    else []

/-- Every structural module of the symbol, in the order the host draws them. `v` is the version information, asked for
and drawn from version 7 on. -/
def structure_ (version f v : Nat) (coords : List Nat) : List ((Nat × Nat) × Bool) :=
  let side := 17 + 4 * version
  finder 0 0 ++ finder (side - 7) 0 ++ finder 0 (side - 7) ++ separators side ++ timing side
    ++ [((8, side - 8), true)] ++ formatStrips side f
    ++ (if version ≥ 7 then versionBlocks side v else []) ++ alignmentPatterns side coords

/-- The alignment coordinates of versions 1 to 20 (rule R252). -/
def alignmentTableLow : List (List Nat) :=
  [[], [6, 18], [6, 22], [6, 26], [6, 30], [6, 34], [6, 22, 38], [6, 24, 42], [6, 26, 46], [6, 28, 50],
   [6, 30, 54], [6, 32, 58], [6, 34, 62], [6, 26, 46, 66], [6, 26, 48, 70], [6, 26, 50, 74], [6, 30, 54, 78],
   [6, 30, 56, 82], [6, 30, 58, 86], [6, 34, 62, 90]]

/-- The alignment coordinates of versions 21 to 40 (rule R252). -/
def alignmentTableHigh : List (List Nat) :=
  [[6, 28, 50, 72, 94], [6, 26, 50, 74, 98], [6, 30, 54, 78, 102], [6, 28, 54, 80, 106], [6, 32, 58, 84, 110],
   [6, 30, 58, 86, 114], [6, 34, 62, 90, 118], [6, 26, 50, 74, 98, 122], [6, 30, 54, 78, 102, 126],
   [6, 26, 52, 78, 104, 130], [6, 30, 56, 82, 108, 134], [6, 34, 60, 86, 112, 138], [6, 30, 58, 86, 114, 142],
   [6, 34, 62, 90, 118, 146], [6, 30, 54, 78, 102, 126, 150], [6, 24, 50, 76, 102, 128, 154],
   [6, 28, 54, 80, 106, 132, 158], [6, 32, 58, 84, 110, 136, 162], [6, 26, 54, 82, 110, 138, 166],
   [6, 30, 58, 86, 114, 142, 170]]

/-- The alignment coordinates of a version (rule R252). -/
def alignmentCoords (version : Nat) : List Nat := (alignmentTableLow ++ alignmentTableHigh).getD (version - 1) []

/-! ## One encode (rule R240). What the sources leave out of it is an argument: the supported charsets, the capacity
table, and the two codeword counts of each version and level (log entry 17). -/

/-- What the caller asks for: "`encode(payload, ecLevel, maskPattern, charset?)`" with the configuration layer's other
parameters that the rules name (rules R240, R241, R253, R189). -/
structure Request where
  payload : List Char
  /-- The "`charset?`" of the call, by name. -/
  charset : Option String
  /-- The 2-bit value of the EC level. -/
  level : Nat
  mask : Nat
  /-- The "optional mode override" (rule R241). -/
  requested : Option Mode
  /-- The module pixel size, a rendering parameter that only step 1 looks at (rule R253). -/
  moduleSize : Nat
  /-- "`CTRL` if wanted" (step 3): none if it is not to be written, else the value of both its bits, `IEN` and
  `REMOK` (rule R37). The rule leaves both to the host, and so the model to the caller (log entry 17). -/
  ctrl : Option (BitVec 2)
  deriving DecidableEq, Repr

/-- What the host knows of a command that was not answered `OK`, once it has acknowledged the error: the command's own
status, what it then read from `ERR` and `ERRCMD`, and the state it left the block in. -/
structure Report where
  status : Status
  err : Word
  errcmd : Word
  state : State
  deriving DecidableEq, Repr

/-- How an encode can fail (rule R255; InvalidCharacter is one of the ways in which packing can). The first three come
before any command is sent. -/
inductive Failure where
  | invalidConfiguration
  | packing (why : PackFailure)
  | capacityExceeded
  /-- A command was answered otherwise than `OK`. -/
  | refused (report : Report)
  deriving DecidableEq, Repr

/-- Step 1: "module size <1, unrecognized EC/mask value — rejected before encoding starts". -/
def Request.valid (q : Request) : Bool := decide (1 ≤ q.moduleSize) && decide (q.level ≤ 3) && decide (q.mask ≤ 7)

/-- What the host has decided before it sends the first command. -/
structure Job where
  version : Nat
  /-- The 2-bit value of the EC level. -/
  level : Nat
  mask : Nat
  ecCount : Nat
  /-- Data codewords of the one Reed-Solomon block the source knows (rule R245). -/
  data : List Byte
  /-- What is written to `CTRL`, if it is. -/
  ctrl : Option (BitVec 2)
  deriving DecidableEq, Repr

/-- Steps 1 and 2: validate; classify and pack; choose the version; complete the bit stream. `capacity mode level version`
is the capacity in characters (rule R244), `dataCount level version` and `ecCount level version` the codeword counts
(rules R243, R245). -/
def Request.prepare (charsets : String → Option Charset) (capacity : Mode → Nat → Nat → Nat)
    (dataCount ecCount : Nat → Nat → Nat) (q : Request) : Except Failure Job :=
  if q.valid then
    let charset := requestedCharset charsets q.charset
    let mode := chosenMode charset q.requested q.payload
    match packPayload charset mode q.payload with
    | .error why => .error (.packing why)
    | .ok packed =>
      match resolveVersion (capacity mode q.level) packed.1 with
      | none => .error .capacityExceeded
      | some version =>
        match dataCodewords mode version (dataCount q.level version) packed with
        | none => .error .capacityExceeded
        | some data => .ok ⟨version, q.level, q.mask, ecCount q.level version, data, q.ctrl⟩
  else .error .invalidConfiguration

/-- Step 3: reset and configuration, the registers in the order the step names them; `CTRL` last and only if wanted. (`SRST`
leaves it 0, rule R37, so a host that does not write it has `IEN` and `REMOK` off.) -/
def Job.configure (job : Job) : List Instr :=
  let coords := alignmentCoords job.version
  [.srst, .csrwr 0x09 job.version, .csrwr 0x0B job.mask, .csrwr 0x0E coords.length]
    ++ (coords.zipIdx.map fun (c, i) => .csrwr (0x10 + i) c)
    ++ [.csrwr 0x0C (job.data.length + job.ecCount)]
    ++ (job.ctrl.toList.map fun c => .csrwr 0x04 c.toNat)

/-- Steps 4 and 5: data codewords from `CW[0]` on, EC codewords after them (rules R131, R245). -/
def Job.codewords (job : Job) : List Instr :=
  (job.data.zipIdx.map fun (d, i) => .cwwr (BitVec.ofNat 12 i) d)
    ++ [.rsinit job.ecCount, .genstd, .rsrun 0 job.data.length, .rsst (BitVec.ofNat 12 job.data.length)]

/-- Present one command and take its response. (A command word always gets one, `exchange_eq` in `Laws/Driver.lean`; the
other two lines are never reached.) -/
def exchange (i : Instr) (s : State) : Response × State :=
  match execWord (encode i) s with
  | .next t =>
    match t.responses.getLast? with
    | some r => (r, t)
    | none => (⟨.locked, 0⟩, t)
  | _ => (⟨.locked, 0⟩, s)

/-- With which of the two commands the host acknowledges an error; the rule leaves that to the host. -/
inductive Acknowledge where
  | errclr | srst
  deriving DecidableEq, Repr

/-- The command. -/
def Acknowledge.command : Acknowledge → Instr
  | .errclr => .errclr
  | .srst => .srst

/-- After a response that was not `OK`: "the host reads `ERR` and `ERRCMD`, and issues `ERRCLR` or `SRST`". -/
def recover (how : Acknowledge) (status : Status) (s : State) : Report :=
  let err := exchange (.csrrd 0x02) s
  let errcmd := exchange (.csrrd 0x03) err.2
  ⟨status, err.1.data, errcmd.1.data, (exchange how.command errcmd.2).2⟩

/-- Present one command and take its datum; "any non-`OK` response ends the encode". -/
def ask (how : Acknowledge) (i : Instr) (s : State) : Except Report (Nat × State) :=
  let answered := exchange i s
  if answered.1.status = .ok then .ok (answered.1.data.toNat, answered.2)
  else .error (recover how answered.1.status answered.2)

/-- Present commands one after another, until one is not answered `OK`. -/
def perform (how : Acknowledge) : List Instr → State → Except Report State
  | [], s => .ok s
  | i :: rest, s => (ask how i s).bind fun answer => perform how rest answer.2

/-- Steps 3 to 7, up to and including `PLACE`; the structural modules are drawn first. -/
def Job.encode (how : Acknowledge) (job : Job) (s : State) : Except Report State :=
  (perform how (job.configure ++ job.codewords) s).bind fun s =>
  (ask how (.fmtenc job.level job.mask) s).bind fun (f, s) =>
  (if job.version ≥ 7 then ask how (.verenc job.version) s else .ok (0, s)).bind fun (v, s) =>
  (perform how (draw (structure_ job.version f v (alignmentCoords job.version))) s).bind fun s =>
  perform how [.place] s

/-- Step 8 for a list of modules: the value of each, in order. -/
def readModules (how : Acknowledge) : List (Nat × Nat) → State → Except Report (List Nat × State)
  | [], s => .ok ([], s)
  | p :: rest, s =>
    (ask how (.modrd p.1 p.2) s).bind fun (m, s) => (readModules how rest s).map fun (ms, s) => (m :: ms, s)

/-- Step 8: the matrix as the host reads it, row by row. -/
def Job.readMatrix (how : Acknowledge) (job : Job) (s : State) : Except Report (List Nat × State) :=
  readModules how (rectangle (17 + 4 * job.version) (17 + 4 * job.version)) s

/-- The whole of rule R240: the module matrix, row by row, and the state of the block after it, or the failure. -/
def Request.encode (charsets : String → Option Charset) (capacity : Mode → Nat → Nat → Nat)
    (dataCount ecCount : Nat → Nat → Nat) (how : Acknowledge) (q : Request) (s : State) : Except Failure (List Nat × State) :=
  (q.prepare charsets capacity dataCount ecCount).bind fun job =>
  ((job.encode how s).bind (job.readMatrix how)).mapError Failure.refused

end Sys2Proof.Machine.Driver
end

