-- ==== Sys2Proof/Laws/Driver.lean ====
section
/-! SUPPORT. What the host gets back for one word and for one list of commands: a response for every word, and a report only
after a response that was not `OK`. -/

namespace Sys2Proof.Machine

/-- One command word: one more response, and the host's inputs untouched. -/
theorem execWord_answers (w : Word) (s : State) :
    ∃ t r, execWord w s = .next t ∧ t.responses = s.responses ++ [r] ∧ t.pending = s.pending := by
  unfold execWord
  split_ifs
  · exact ⟨_, _, rfl, rfl, rfl⟩
  · split
    · exact ⟨_, _, rfl, rfl, rfl⟩
    · rename_i i _
      obtain ⟨c, -, h⟩ | ⟨t, h, ⟨d, hd⟩, hp, -, -⟩ := exec_cases i { s with cmdWord := w }
      · exact ⟨_, _, h, rfl, rfl⟩
      · exact ⟨_, _, h, hd, hp⟩

namespace Driver

/-- `exchange` is one word through the port and its response. -/
theorem exchange_eq (i : Instr) (s : State) :
    execWord (encode i) s = .next (exchange i s).2 ∧ (exchange i s).2.responses = s.responses ++ [(exchange i s).1] := by
  obtain ⟨t, r, h, hr, -⟩ := execWord_answers (encode i) s
  simp [exchange, h, hr]

/-- One command asked: its datum after `OK`, otherwise the report of its own status. -/
theorem ask_cases (how : Acknowledge) (i : Instr) (s : State) :
    ((exchange i s).1.status = .ok ∧ ask how i s = .ok ((exchange i s).1.data.toNat, (exchange i s).2)) ∨
    ((exchange i s).1.status ≠ .ok ∧ ask how i s = .error (recover how (exchange i s).1.status (exchange i s).2)) := by
  by_cases h : (exchange i s).1.status = .ok
  · exact .inl ⟨h, by simp [ask, h]⟩
  · exact .inr ⟨h, by simp [ask, h]⟩

theorem perform_nil (how : Acknowledge) (s : State) : perform how [] s = .ok s := rfl

/-- Commands in two stretches are the commands in one. -/
theorem perform_append (how : Acknowledge) (is js : List Instr) (s : State) :
    perform how (is ++ js) s = (perform how is s).bind (perform how js) := by
  induction is generalizing s with
  | nil => rfl
  | cons i is ih =>
    obtain ⟨-, h⟩ | ⟨-, h⟩ := ask_cases how i s
    · simp [perform, h, Except.bind, ih]
    · simp [perform, h, Except.bind]

/-- A request that fails step 1 fails so, whatever its payload is and before any command is sent. -/
theorem encode_of_invalid (charsets : String → Option Charset) (capacity : Config.Mode → Nat → Nat → Nat)
    (dataCount ecCount : Nat → Nat → Nat) (how : Acknowledge) (q : Request) (s : State) (h : q.valid = false) :
    q.encode charsets capacity dataCount ecCount how s = .error .invalidConfiguration := by
  simp [Request.encode, Request.prepare, h, Except.bind]

/-- Byte mode is not entered with an unsupported charset, not even for an empty payload (rule R242). -/
theorem packPayload_unsupported (payload : List Char) :
    packPayload none .byte payload = .error .unsupportedCharset := rfl

/-- Where a mode has every character, every character gets its value. -/
theorem charValues_isOk {value : Char → Option Nat} {payload : List Char}
    (h : (payload.all fun c => (value c).isSome) = true) : ∃ vs, charValues value payload = .ok vs := by
  have hm : ∃ vs, payload.mapM value = some vs := by
    induction payload with
    | nil => exact ⟨[], rfl⟩
    | cons c cs ih =>
      simp only [List.all_cons, Bool.and_eq_true, Option.isSome_iff_exists] at h
      obtain ⟨⟨v, hv⟩, hcs⟩ := h
      obtain ⟨vs, hvs⟩ := ih hcs
      exact ⟨v :: vs, by simp [List.mapM_cons, hv, hvs]⟩
  obtain ⟨vs, hvs⟩ := hm
  exact ⟨vs, by simp [charValues, hvs]⟩

/-- "Classification must guarantee validity" (rule R242): in the auto-detected mode only byte mode can fail. -/
theorem packPayload_classify (charset : Option Charset) (payload : List Char) (why : PackFailure)
    (h : packPayload charset (classify payload) payload = .error why) : classify payload = .byte := by
  by_contra hb
  have : ∃ r, packPayload charset (classify payload) payload = .ok r := by
    by_cases he : payload = []
    · subst he
      cases hm : classify [] with
      | byte => exact absurd hm hb
      | numeric => exact ⟨_, rfl⟩
      | alphanumeric => exact ⟨_, rfl⟩
    · unfold classify at hb ⊢
      rw [if_neg he] at hb ⊢
      split_ifs at hb ⊢ with hd ha
      · obtain ⟨vs, hvs⟩ := charValues_isOk hd
        exact ⟨_, by simp only [packPayload, hvs]; rfl⟩
      · obtain ⟨vs, hvs⟩ := charValues_isOk ha
        exact ⟨_, by simp only [packPayload, hvs]; rfl⟩
      · exact absurd rfl hb
  obtain ⟨r, hr⟩ := this
  simp [hr] at h

/-- In the mode the host chooses, requested or detected, the contract of rule R242 is never violated. -/
theorem packPayload_chosen (charset : Option Charset) (requested : Option Config.Mode) (payload : List Char)
    (why : PackFailure) (h : packPayload charset (chosenMode charset requested payload) payload = .error why) :
    why ≠ .contractViolation := by
  have byte : ∀ w, packPayload charset .byte payload = .error w → w ≠ .contractViolation := by
    intro w hw
    simp only [packPayload, enterByteMode] at hw
    split at hw
    · cases hw; simp
    · split at hw
      · cases hw; simp
      · cases hw
  have detected : packPayload charset (classify payload) payload = .error why → why ≠ .contractViolation := fun hc =>
    byte why (packPayload_classify charset payload why hc ▸ hc)
  unfold chosenMode at h
  split at h
  · exact detected h
  · split_ifs at h with hw
    · rintro rfl
      simp [representable, h] at hw
    · exact detected h

end Driver

end Sys2Proof.Machine
end

