-- ==== Sys2Proof/Laws/Memory.lean ====
section
/-! SUPPORT. The laws of the two memories: a read after a write, every other cell left alone, the canonical form kept by
every operation, and equal reads make equal memories. -/

namespace Sys2Proof.Machine.Memory

variable {α : Type}

@[simp] theorem read_nil (a : Nat) : read ([] : List (Nat × α)) a = none := rfl

@[simp] theorem read_write_self (m : List (Nat × α)) (a : Nat) (v : α) : read (write m a v) a = some v := by
  induction m with
  | nil => simp [write, read]
  | cons cell rest ih =>
    obtain ⟨b, u⟩ := cell
    unfold write
    split_ifs with hlt heq
    · simp [read]
    · simp [read]
    · simp [read, heq, hlt, ih]

theorem read_write_other (m : List (Nat × α)) {a c : Nat} (v : α) (h : c ≠ a) :
    read (write m a v) c = read m c := by
  induction m with
  | nil =>
    simp only [write, read, if_neg h]
    split_ifs <;> rfl
  | cons cell rest ih =>
    obtain ⟨b, u⟩ := cell
    unfold write
    split_ifs with hlt heq
    · have hrest : c < a → read ((b, u) :: rest) c = none := fun hc => by
        simp only [read, if_neg (show c ≠ b by omega), if_pos (show c < b by omega)]
      show (if c = a then some v else if c < a then none else read ((b, u) :: rest) c) = _
      rw [if_neg h]
      split_ifs with hc
      · exact (hrest hc).symm
      · rfl
    · subst heq
      simp only [read, if_neg h]
    · simp only [read, ih]

theorem read_write (m : List (Nat × α)) (a c : Nat) (v : α) :
    read (write m a v) c = if c = a then some v else read m c := by
  split_ifs with h
  · rw [h, read_write_self]
  · exact read_write_other m v h

theorem risingFrom_mono {size lo lo' : Nat} (m : List (Nat × α)) (h : lo' ≤ lo) (hm : risingFrom size lo m = true) :
    risingFrom size lo' m = true := by
  cases m with
  | nil => rfl
  | cons cell rest =>
    simp only [risingFrom, Bool.and_eq_true, decide_eq_true_eq] at hm ⊢
    exact ⟨⟨by omega, hm.1.2⟩, hm.2⟩

theorem risingFrom_write {size lo a : Nat} (m : List (Nat × α)) (v : α) (hlo : lo ≤ a) (ha : a < size)
    (hm : risingFrom size lo m = true) : risingFrom size lo (write m a v) = true := by
  induction m generalizing lo with
  | nil => simp [write, risingFrom, hlo, ha]
  | cons cell rest ih =>
    obtain ⟨b, u⟩ := cell
    simp only [risingFrom, Bool.and_eq_true, decide_eq_true_eq] at hm
    unfold write
    split_ifs with hlt heq
    · simp only [risingFrom, Bool.and_eq_true, decide_eq_true_eq]
      exact ⟨⟨hlo, ha⟩, ⟨by omega, hm.1.2⟩, hm.2⟩
    · subst heq
      simp only [risingFrom, Bool.and_eq_true, decide_eq_true_eq]
      exact hm
    · simp only [risingFrom, Bool.and_eq_true, decide_eq_true_eq]
      exact ⟨hm.1, ih (by omega) hm.2⟩

/-- A write to a cell the memory has keeps the canonical form. -/
theorem wf_write {size a : Nat} (m : List (Nat × α)) (v : α) (ha : a < size) (hm : wf size m = true) :
    wf size (write m a v) = true :=
  risingFrom_write m v (Nat.zero_le a) ha hm

@[simp] theorem wf_nil (size : Nat) : wf size ([] : List (Nat × α)) = true := rfl

/-- A run of writes inside the memory keeps the canonical form. -/
theorem wf_writeRun {size : Nat} (vs : List α) (m : List (Nat × α)) (a : Nat) (h : a + vs.length ≤ size)
    (hm : wf size m = true) : wf size (writeRun m a vs) = true := by
  induction vs generalizing m a with
  | nil => exact hm
  | cons v vs ih =>
    simp only [List.length_cons] at h
    exact ih _ _ (by omega) (wf_write m v (by omega) hm)

/-- What a run of writes leaves in every cell. -/
theorem read_writeRun (vs : List α) (m : List (Nat × α)) (a c : Nat) :
    read (writeRun m a vs) c = if a ≤ c ∧ c < a + vs.length then vs[c - a]? else read m c := by
  induction vs generalizing m a with
  | nil =>
    rw [if_neg (by simp)]
    rfl
  | cons v vs ih =>
    simp only [writeRun, ih, read_write, List.length_cons]
    by_cases hca : c = a
    · subst hca
      rw [if_neg (by omega), if_pos rfl, if_pos (by omega)]
      simp
    · rw [if_neg hca]
      by_cases hin : a + 1 ≤ c ∧ c < a + 1 + vs.length
      · rw [if_pos hin, if_pos (by omega)]
        obtain ⟨k, rfl⟩ : ∃ k, c = a + 1 + k := ⟨c - (a + 1), by omega⟩
        have h1 : a + 1 + k - (a + 1) = k := by omega
        have h2 : a + 1 + k - a = k + 1 := by omega
        rw [h1, h2, List.getElem?_cons_succ]
      · rw [if_neg hin, if_neg (by omega)]

theorem read_below {size lo c : Nat} (m : List (Nat × α)) (hm : risingFrom size lo m = true) (h : c < lo) :
    read m c = none := by
  cases m with
  | nil => rfl
  | cons cell rest =>
    obtain ⟨b, u⟩ := cell
    simp only [risingFrom, Bool.and_eq_true, decide_eq_true_eq] at hm
    simp only [read, if_neg (show c ≠ b by omega), if_pos (show c < b by omega)]

theorem read_head (m : List (Nat × α)) (b : Nat) (u : α) : read ((b, u) :: m) b = some u := by
  simp [read]

/-- Two memories in canonical form that read alike everywhere are the same list. -/
theorem ext_of_read {size lo : Nat} (m m' : List (Nat × α)) (hm : risingFrom size lo m = true)
    (hm' : risingFrom size lo m' = true) (h : ∀ c, read m c = read m' c) : m = m' := by
  induction m generalizing lo m' with
  | nil =>
    cases m' with
    | nil => rfl
    | cons cell rest =>
      have := h cell.1
      rw [read_nil, read_head rest cell.1 cell.2] at this
      cases this
  | cons cell rest ih =>
    obtain ⟨b, u⟩ := cell
    cases m' with
    | nil =>
      have := h b
      rw [read_nil, read_head] at this
      cases this
    | cons cell' rest' =>
      obtain ⟨b', u'⟩ := cell'
      have hb : b = b' := by
        rcases Nat.lt_trichotomy b b' with hlt | heq | hgt
        · have := h b
          rw [read_head, show read ((b', u') :: rest') b = none by
            simp only [read, if_neg (show b ≠ b' by omega), if_pos hlt]] at this
          cases this
        · exact heq
        · have := h b'
          rw [read_head, show read ((b, u) :: rest) b' = none by
            simp only [read, if_neg (show b' ≠ b by omega), if_pos hgt]] at this
          cases this
      subst hb
      have hu : u = u' := by
        have := h b
        rw [read_head, read_head] at this
        exact Option.some.inj this
      subst hu
      simp only [risingFrom, Bool.and_eq_true, decide_eq_true_eq] at hm hm'
      rw [ih rest' hm.2 hm'.2]
      intro c
      have hc := h c
      rcases Nat.lt_trichotomy c b with hlt | heq | hgt
      · rw [read_below rest hm.2 (by omega), read_below rest' hm'.2 (by omega)]
      · rw [read_below rest hm.2 (by omega), read_below rest' hm'.2 (by omega)]
      · simpa only [read, if_neg (show c ≠ b by omega), if_neg (show ¬ c < b by omega)] using hc

/-- Inside the module memory two cells with the same number are the same cell. -/
theorem cellNumber_inj {x y x' y' : Nat} (hx : x < Config.mMax) (hx' : x' < Config.mMax)
    (h : cellNumber x y = cellNumber x' y') : x = x' ∧ y = y' := by
  simp only [cellNumber, Config.mMax] at *
  omega

theorem cellNumber_lt {x y : Nat} (hx : x < Config.mMax) (hy : y < Config.mMax) : cellNumber x y < modCells := by
  simp only [cellNumber, modCells, Config.mMax] at *
  omega

end Sys2Proof.Machine.Memory
end

