-- ==== Sys2Proof/Laws/PerInstr.lean ====
section
/-! SUPPORT. What holds of every command as syntax, one lemma per constructor: the opcode a well-formed command is encoded
with can be read back from bits 31 to 24, and its operands stay within bits 23 to 0 (rules R81 to R89). -/

namespace Sys2Proof.Laws.OpcodeField

/-- The operands of a well-formed command fit `w[23:0]` and its opcode stands in `w[31:24]`. -/
def Statement (i : Instr) : Prop :=
  i.wellFormed = true → i.operandBits < 2 ^ 24 ∧ opcodeOf (encode i) = i.opcode

/-- Operands that stay within 24 bits leave the opcode field alone. -/
theorem opcode_of_encode (i : Instr) (hop : i.opcode < 2 ^ 8) (h : i.operandBits < 2 ^ 24) :
    opcodeOf (encode i) = i.opcode := by
  simp only [opcodeOf, encode, bits, BitVec.toNat_ofNat]
  omega

theorem opcode_lt (i : Instr) : i.opcode < 2 ^ 8 := by cases i <;> simp only [Instr.opcode] <;> decide

theorem of_bound {i : Instr} (h : i.wellFormed = true → i.operandBits < 2 ^ 24) : Statement i := fun hw =>
  ⟨h hw, opcode_of_encode i (opcode_lt i) (h hw)⟩

theorem nop : Statement .nop := of_bound fun _ => by decide
theorem srst : Statement .srst := of_bound fun _ => by decide
theorem errclr : Statement .errclr := of_bound fun _ => by decide
theorem csrrd (n : Nat) : Statement (.csrrd n) := of_bound fun h => by
  simp only [Instr.wellFormed, fitsField, decide_eq_true_eq] at h
  simp only [Instr.operandBits, formatC]
  omega
theorem csrwr (n v : Nat) : Statement (.csrwr n v) := of_bound fun h => by
  simp only [Instr.wellFormed, fitsField, Bool.and_eq_true, decide_eq_true_eq] at h
  simp only [Instr.operandBits, formatC]
  omega
theorem gfexp (e : Nat) : Statement (.gfexp e) := of_bound fun h => by
  simp only [Instr.wellFormed, fitsField, decide_eq_true_eq] at h
  simp only [Instr.operandBits, formatB]
  omega
theorem gflog (a : Byte) : Statement (.gflog a) := of_bound fun _ => by
  have := a.isLt
  simp only [Instr.operandBits, formatB]
  omega
theorem gfmul (a b : Byte) : Statement (.gfmul a b) := of_bound fun _ => by
  have := a.isLt; have := b.isLt
  simp only [Instr.operandBits, formatBB]
  omega
theorem gfmac (a b : Byte) : Statement (.gfmac a b) := of_bound fun _ => by
  have := a.isLt; have := b.isLt
  simp only [Instr.operandBits, formatBB]
  omega
theorem rsinit (n : Nat) : Statement (.rsinit n) := of_bound fun h => by
  simp only [Instr.wellFormed, fitsField, decide_eq_true_eq] at h
  simp only [Instr.operandBits, formatB]
  omega
theorem genwr (pos : Nat) (val : Byte) : Statement (.genwr pos val) := of_bound fun h => by
  have := val.isLt
  simp only [Instr.wellFormed, fitsField, decide_eq_true_eq] at h
  simp only [Instr.operandBits, formatBB]
  omega
theorem genrd (pos : Nat) : Statement (.genrd pos) := of_bound fun h => by
  simp only [Instr.wellFormed, fitsField, decide_eq_true_eq] at h
  simp only [Instr.operandBits, formatB]
  omega
theorem genstd : Statement .genstd := of_bound fun _ => by decide
theorem rsbyte (d : Byte) : Statement (.rsbyte d) := of_bound fun _ => by
  have := d.isLt
  simp only [Instr.operandBits, formatB]
  omega
theorem rsrd (pos : Nat) : Statement (.rsrd pos) := of_bound fun h => by
  simp only [Instr.wellFormed, fitsField, decide_eq_true_eq] at h
  simp only [Instr.operandBits, formatB]
  omega
theorem rsrun (start : CwAddr) (count : Nat) : Statement (.rsrun start count) := of_bound fun h => by
  have := start.isLt
  simp only [Instr.wellFormed, fitsField, decide_eq_true_eq] at h
  simp only [Instr.operandBits, formatAA]
  omega
theorem rsst (dst : CwAddr) : Statement (.rsst dst) := of_bound fun _ => by
  have := dst.isLt
  simp only [Instr.operandBits, formatA]
  omega
theorem fmtenc (ec mask : Nat) : Statement (.fmtenc ec mask) := of_bound fun h => by
  simp only [Instr.wellFormed, fitsField, Bool.and_eq_true, decide_eq_true_eq] at h
  simp only [Instr.operandBits, formatBB]
  omega
theorem verenc (ver : Nat) : Statement (.verenc ver) := of_bound fun h => by
  simp only [Instr.wellFormed, fitsField, decide_eq_true_eq] at h
  simp only [Instr.operandBits, formatB]
  omega
theorem cwwr (a : CwAddr) (d : Byte) : Statement (.cwwr a d) := of_bound fun _ => by
  have := a.isLt; have := d.isLt
  simp only [Instr.operandBits, formatA]
  omega
theorem cwrd (a : CwAddr) : Statement (.cwrd a) := of_bound fun _ => by
  have := a.isLt
  simp only [Instr.operandBits, formatA]
  omega
theorem modwr (x y : Nat) (v : Bool) : Statement (.modwr x y v) := of_bound fun h => by
  have := Bool.toNat_lt v
  simp only [Instr.wellFormed, fitsField, Bool.and_eq_true, decide_eq_true_eq] at h
  simp only [Instr.operandBits, formatXY]
  omega
theorem modrd (x y : Nat) : Statement (.modrd x y) := of_bound fun h => by
  simp only [Instr.wellFormed, fitsField, Bool.and_eq_true, decide_eq_true_eq] at h
  simp only [Instr.operandBits, formatXY]
  omega
theorem rsvq (x y : Nat) : Statement (.rsvq x y) := of_bound fun h => by
  simp only [Instr.wellFormed, fitsField, Bool.and_eq_true, decide_eq_true_eq] at h
  simp only [Instr.operandBits, formatXY]
  omega
theorem maskq (x y : Nat) : Statement (.maskq x y) := of_bound fun h => by
  simp only [Instr.wellFormed, fitsField, Bool.and_eq_true, decide_eq_true_eq] at h
  simp only [Instr.operandBits, formatXY]
  omega
theorem rsvcnt : Statement .rsvcnt := of_bound fun _ => by decide
theorem place : Statement .place := of_bound fun _ => by decide

end Sys2Proof.Laws.OpcodeField
end

