-- ==== Sys2Proof/Machine/Assembler.lean ====
section
/-! DEFINITION. The assembler text of rules R96 and R97: one command per line, mnemonic in capitals, operands separated by
commas in the order of rule R91. It is the notation of the spec, not a part of the block: nothing in `Machine` uses it.
Text is a list of characters. -/

namespace Sys2Proof.Machine.Assembler

/-- A blank between tokens; the rules do not say which characters may stand there (log entry 8). -/
def isBlank (c : Char) : Bool := c == ' ' || c == '\t'

/-- The text without blanks at either end. -/
def trim (cs : List Char) : List Char := ((cs.dropWhile isBlank).reverse.dropWhile isBlank).reverse

/-- The parts between commas. -/
def splitCommas : List Char → List (List Char)
  | [] => [[]]
  | c :: cs =>
    if c == ',' then [] :: splitCommas cs
    else
      match splitCommas cs with
      | [] => [[c]]
      | part :: parts => (c :: part) :: parts

/-- The value of a digit, if it is one of the base's. -/
def digit (base : Nat) (c : Char) : Option Nat :=
  let v :=
    if '0' ≤ c ∧ c ≤ '9' then c.toNat - '0'.toNat
    else if 'A' ≤ c ∧ c ≤ 'F' then c.toNat - 'A'.toNat + 10
    else if 'a' ≤ c ∧ c ≤ 'f' then c.toNat - 'a'.toNat + 10
    else base
  if v < base then some v else none

/-- Digits read after the number `acc`. -/
def digitsFrom (base : Nat) : Nat → List Char → Option Nat
  | acc, [] => some acc
  | acc, c :: cs => (digit base c).bind fun v => digitsFrom base (acc * base + v) cs

/-- A number of at least one digit. -/
def digits (base : Nat) : List Char → Option Nat
  | [] => none
  | cs => digitsFrom base 0 cs

/-- "Numbers are decimal, or hexadecimal with `0x`, or binary with `0b`" (rule R96). -/
def number : List Char → Option Nat
  | '0' :: 'x' :: cs => digits 16 cs
  | '0' :: 'b' :: cs => digits 2 cs
  | cs => digits 10 cs

/-- A number that fits a field of `width` bits; one that does not is an assembly error (rule R96). -/
def field (width : Nat) (cs : List Char) : Option Nat :=
  (number cs).bind fun n => if fitsField width n then some n else none

/-- An operand byte. -/
def byte (cs : List Char) : Option Byte := (field 8 cs).map (BitVec.ofNat 8)

/-- An operand address of `CW`. -/
def addr (cs : List Char) : Option CwAddr := (field 12 cs).map (BitVec.ofNat 12)

/-- An operand module value. -/
def moduleValue (cs : List Char) : Option Bool := (field 1 cs).map (· == 1)

/-- The CSR names of rule R31. -/
def csrNames : List (String × Nat) :=
  [("ID", 0x00), ("STATUS", 0x01), ("ERR", 0x02), ("ERRCMD", 0x03), ("CTRL", 0x04), ("ACC", 0x05), ("ECN", 0x06),
   ("FMT", 0x07), ("VINFO", 0x08), ("VER", 0x09), ("SIZE", 0x0A), ("MASK", 0x0B), ("NCW", 0x0C), ("BITCNT", 0x0D),
   ("ALNCNT", 0x0E), ("ALN0", 0x10), ("ALN1", 0x11), ("ALN2", 0x12), ("ALN3", 0x13), ("ALN4", 0x14),
   ("ALN5", 0x15), ("ALN6", 0x16)]

/-- The names of the EC levels (rule R97). -/
def levelNames : List (String × Nat) := [("M", 0), ("L", 1), ("H", 2), ("Q", 3)]

/-- The number a name stands for. -/
def named (names : List (String × Nat)) (cs : List Char) : Option Nat :=
  (names.find? fun entry => entry.1.toList == cs).map (·.2)

/-- "A CSR operand may be written by name ... or number" (rule R96). -/
def csr (cs : List Char) : Option Nat := (named csrNames cs).or (field 8 cs)

/-- The `ec` operand of `FMTENC`: a level name or a number (rule R97). -/
def level (cs : List Char) : Option Nat := (named levelNames cs).or (field 8 cs)

/-- A command made of two operands. -/
def two {α β : Type} (f : α → β → Instr) (a : Option α) (b : Option β) : Option Instr :=
  a.bind fun a => b.map (f a)

/-- The command with this mnemonic and these operands, in the order of rule R91. -/
def command (mnemonic : String) (operands : List (List Char)) : Option Instr :=
  match mnemonic, operands with
  | "NOP", [] => some .nop
  | "SRST", [] => some .srst
  | "ERRCLR", [] => some .errclr
  | "CSRRD", [n] => (csr n).map .csrrd
  | "CSRWR", [n, v] => two .csrwr (csr n) (field 16 v)
  | "GFEXP", [e] => (field 8 e).map .gfexp
  | "GFLOG", [a] => (byte a).map .gflog
  | "GFMUL", [a, b] => two .gfmul (byte a) (byte b)
  | "GFMAC", [a, b] => two .gfmac (byte a) (byte b)
  | "RSINIT", [n] => (field 8 n).map .rsinit
  | "GENWR", [p, v] => two .genwr (field 8 p) (byte v)
  | "GENRD", [p] => (field 8 p).map .genrd
  | "GENSTD", [] => some .genstd
  | "RSBYTE", [d] => (byte d).map .rsbyte
  | "RSRD", [p] => (field 8 p).map .rsrd
  | "RSRUN", [s, c] => two .rsrun (addr s) (field 12 c)
  | "RSST", [d] => (addr d).map .rsst
  | "FMTENC", [e, m] => two .fmtenc (level e) (field 8 m)
  | "VERENC", [v] => (field 8 v).map .verenc
  | "CWWR", [a, d] => two .cwwr (addr a) (byte d)
  | "CWRD", [a] => (addr a).map .cwrd
  | "MODWR", [x, y, v] => (field 8 x).bind fun x => two (.modwr x) (field 8 y) (moduleValue v)
  | "MODRD", [x, y] => two .modrd (field 8 x) (field 8 y)
  | "RSVQ", [x, y] => two .rsvq (field 8 x) (field 8 y)
  | "MASKQ", [x, y] => two .maskq (field 8 x) (field 8 y)
  | "RSVCNT", [] => some .rsvcnt
  | "PLACE", [] => some .place
  | _, _ => none

/-- What one line is. -/
inductive Line where
  /-- No command: an empty line or a comment. -/
  | blank
  /-- The word of a command. -/
  | word (w : Word)
  /-- An assembly error. -/
  | error
  deriving DecidableEq, Repr

/-- Assemble one line (rule R96); `;` starts a comment. -/
def assemble (line : List Char) : Line :=
  let text := trim (line.takeWhile (· != ';'))
  if text = [] then .blank
  else
    let rest := trim (text.dropWhile (!isBlank ·))
    let operands := if rest = [] then [] else (splitCommas rest).map trim
    match command (String.ofList (text.takeWhile (!isBlank ·))) operands with
    | some i => .word (encode i)
    | none => .error

end Sys2Proof.Machine.Assembler
end

