-- ==== Sys2Proof/Tests/Slice0.lean ====
section
/-! SUPPORT. The model's own tests. Expected words and results are those of `95_test_vectors.md` (V and P numbers) and of the
rules named beside a test, never the model's own answer. Then one witness for every statement that has hypotheses. -/

namespace Sys2Proof.Tests

open Sys2Proof Sys2Proof.Machine

-- One theorem after another: each `decide +kernel` waits for the ones before it, and a waiting thread holds memory.
set_option Elab.async false

/-! ## Helpers: small states, and one step on one presented word -/

/-- The last response after one step on the presented word `w`. -/
def answerTo (w : Word) (s : State) : Option (Status × Word) :=
  match step (s.present w) with
  | .next t => t.responses.getLast?.map fun r => (r.status, r.data)
  | _ => none

/-- A register after one step on the presented word `w`. -/
def after {α : Type} (w : Word) (s : State) (get : State → α) : Option α :=
  match step (s.present w) with
  | .next t => some (get t)
  | _ => none

/-- Reset with other registers. -/
def withRegs (r : Regs) : State := { State.reset with regs := r }

/-- Reset with `ECN = n` (rule R121's effect on a cleared `REM`). -/
def withEcn (n : BitVec 5) : State := withRegs { Regs.reset with ecn := n }

/-- FAULTED by `GFLOG 0`, as in V61. -/
def faultedState : State := withRegs { Regs.reset with err := 3, errcmd := 0x11000000 }

/-- A register file that starts with these bytes. -/
def file (n : Nat) (bs : List Byte) : Vector Byte n := loadEntries (Vector.replicate n 0) bs

/-- Version 1 ready to place 26 codewords, all bytes written (V45). -/
def placeReady : State :=
  { withRegs { Regs.reset with ncw := 26 } with cw := (List.range 26).map fun a => (a, BitVec.ofNat 8 (5 * a)) }

/-! ## Well-formedness (rule R96): an ill-formed term for each check -/

theorem test_illformed_csr_number : (Instr.csrrd 256).wellFormed = false ∧ (Instr.csrwr 256 0).wellFormed = false := by decide
theorem test_illformed_csr_value : (Instr.csrwr 0 65536).wellFormed = false := by decide
theorem test_illformed_exponent : (Instr.gfexp 256).wellFormed = false := by decide
theorem test_illformed_ec_count : (Instr.rsinit 256).wellFormed = false := by decide
theorem test_illformed_position :
    (Instr.genwr 256 0).wellFormed = false ∧ (Instr.genrd 256).wellFormed = false ∧
    (Instr.rsrd 256).wellFormed = false := by decide
theorem test_illformed_count : (Instr.rsrun 0 4096).wellFormed = false := by decide
theorem test_illformed_level_and_mask :
    (Instr.fmtenc 256 0).wellFormed = false ∧ (Instr.fmtenc 0 256).wellFormed = false := by decide
theorem test_illformed_version : (Instr.verenc 256).wellFormed = false := by decide
theorem test_illformed_column :
    (Instr.modwr 256 0 true).wellFormed = false ∧ (Instr.modrd 256 0).wellFormed = false ∧
    (Instr.rsvq 256 0).wellFormed = false ∧ (Instr.maskq 256 0).wellFormed = false := by decide
theorem test_illformed_row :
    (Instr.modwr 0 256 true).wellFormed = false ∧ (Instr.modrd 0 256).wellFormed = false ∧
    (Instr.rsvq 0 256).wellFormed = false ∧ (Instr.maskq 0 256).wellFormed = false := by decide
/-- "An operand that fits the field but is illegal for the command assembles" (rule R96). -/
theorem test_wellformed_but_illegal :
    (Instr.rsinit 31).wellFormed = true ∧ (Instr.gfexp 255).wellFormed = true ∧
    (Instr.csrwr 0x09 41).wellFormed = true ∧ (Instr.modwr 177 255 true).wellFormed = true := by decide

/-! ## Decoding: one word per command, from the formats of rules R83 to R89 and the words of `95_test_vectors.md` -/

theorem test_decode_system :
    decode 0x00000000 = some .nop ∧ decode 0x01000000 = some .srst ∧ decode 0x02000000 = some .errclr ∧
    decode 0x08160000 = some (.csrrd 0x16) ∧ decode 0x090C1001 = some (.csrwr 0x0C 4097) := by decide
theorem test_decode_gf :
    decode 0x100000FE = some (.gfexp 254) ∧ decode 0x1100001D = some (.gflog 0x1D) ∧
    decode 0x12000280 = some (.gfmul 2 0x80) ∧ decode 0x13000307 = some (.gfmac 3 7) := by decide
theorem test_decode_rs :
    decode 0x2000000A = some (.rsinit 10) ∧ decode 0x21001DAA = some (.genwr 29 0xAA) ∧
    decode 0x2200001D = some (.genrd 29) ∧ decode 0x23000000 = some .genstd ∧
    decode 0x2400005B = some (.rsbyte 0x5B) ∧ decode 0x25000009 = some (.rsrd 9) ∧
    decode 0x26FA0061 = some (.rsrun 4000 97) ∧ decode 0x27FF6000 = some (.rsst 4086) := by decide
theorem test_decode_bch : decode 0x30000307 = some (.fmtenc 3 7) ∧ decode 0x31000028 = some (.verenc 40) := by decide
theorem test_decode_access :
    decode 0x4000105B = some (.cwwr 1 0x5B) ∧ decode 0x41FFF000 = some (.cwrd 4095) ∧
    decode 0x42080D01 = some (.modwr 8 13 true) ∧ decode 0x42080D00 = some (.modwr 8 13 false) ∧
    decode 0x43131400 = some (.modrd 19 20) := by decide
theorem test_decode_placement :
    decode 0x50101400 = some (.rsvq 16 20) ∧ decode 0x51120900 = some (.maskq 18 9) ∧
    decode 0x52000000 = some .rsvcnt ∧ decode 0x53000000 = some .place := by decide
/-- V60: a must-be-zero bit, or an unassigned opcode. -/
theorem test_decode_illegal_words :
    [0x03000000, 0xFF000000, 0x00000001, 0x53000001, 0x10000100, 0x12010000, 0x08090001, 0x27000001, 0x40000100,
      0x42000002].all (fun w => decode w == none) = true := by decide
/-- V60: every field at its maximum. -/
theorem test_decode_full_fields :
    decode 0x26FFFFFF = some (.rsrun 4095 4095) ∧ decode 0x09FFFFFF = some (.csrwr 0xFF 0xFFFF) ∧
    decode 0x1300FFFF = some (.gfmac 0xFF 0xFF) := by decide
/-- The encoder, on words of P3 and P4. -/
theorem test_encode_words :
    encode (.fmtenc 1 2) = 0x30000102 ∧ encode (.cwwr 15 0x11) = 0x4000F011 ∧ encode (.rsst 16) = 0x27010000 ∧
    encode (.modwr 8 13 true) = 0x42080D01 ∧ encode (.csrwr 0x0C 26) = 0x090C001A := by decide
/-- The numbering of the opcode table: 32 bits, the word's own; shorter than 32 means zeros above. -/
theorem test_decode_table_word :
    decodeTableWord 32 0x12000280 = some (.gfmul 2 0x80) ∧ decodeTableWord 8 0 = some .nop ∧
    decodeTableWord 32 0x10000100 = none ∧ decodeTableWord 40 0x0100000000 = none := by decide
/-- The word is placed where the next step takes it, before whatever the host was about to present. -/
theorem test_with_fetch_word :
    (State.reset.withFetchWord 32 0x53000000).pending = [.command 0x53000000] ∧
    ({ State.reset with pending := [.hardReset] }.withFetchWord 32 0x00000000).pending = [.command 0, .hardReset] := by decide

/-! ## Reset, system commands, CSRs (V50, V51, P5) -/

theorem test_reset_memories_wf :
    Memory.wf Config.cwMax State.reset.cw = true ∧ Memory.wf modCells State.reset.mod = true := by decide
theorem test_nop_writes_nothing : after 0x00000000 faultedState (·.regs) = some faultedState.regs := by decide +kernel
theorem test_srst_keeps_memories :
    after 0x01000000 { faultedState with cw := [(5, 0xAA)] } (fun t => (t.regs, t.cw)) =
      some (Regs.reset, [(5, 0xAA)]) := by decide +kernel
theorem test_errclr_clears :
    after 0x02000000 faultedState (fun t => (t.regs.err, t.regs.errcmd, t.regs.ver)) = some (0, 0, 1) := by decide +kernel
theorem test_csrrd_id : answerTo 0x08000000 State.reset = some (.ok, 0x51524543) := by decide +kernel
theorem test_csrrd_size_and_unimplemented :
    answerTo 0x080A0000 State.reset = some (.ok, 0x15) ∧
    answerTo 0x080F0000 State.reset = some (.error .illegalCsr, 0) := by decide +kernel
theorem test_csrwr_ver_40 :
    after 0x09090028 State.reset (fun t => (t.regs.ver, t.regs.size)) = some (40, 177) := by decide +kernel
theorem test_csrwr_refusals :
    answerTo 0x09090029 State.reset = some (.error .illegalValue, 0) ∧
    answerTo 0x090C1001 State.reset = some (.error .illegalValue, 0) ∧
    answerTo 0x09060005 State.reset = some (.error .illegalCsr, 0) := by decide +kernel
/-- V60: code 1 and the word itself. -/
theorem test_illegal_word_is_recorded :
    after 0x12010000 State.reset (fun t => (t.regs.err, t.regs.errcmd)) = some (1, 0x12010000) := by decide +kernel
/-- V61: locked, even an unassigned opcode; an exempt opcode with a bad word is not locked. -/
theorem test_lock :
    answerTo 0x12000202 faultedState = some (.locked, 0) ∧ answerTo 0x7F000000 faultedState = some (.locked, 0) ∧
    answerTo 0x00000001 faultedState = some (.error .illegalCmd, 0) ∧
    after 0x00000001 faultedState (·.regs) = some faultedState.regs := by decide +kernel
/-- V52. -/
theorem test_status_and_irq :
    answerTo 0x08010000 faultedState = some (.ok, 1) ∧
    answerTo 0x08010000 (withRegs { faultedState.regs with ctrl := 1 }) = some (.ok, 3) := by decide +kernel
/-- Rule R304: no response. -/
theorem test_reset_cuts_a_command :
    (match step { faultedState with pending := [.commandCutByReset 0x53000000] } with
      | .next t => some (t.regs, t.responses)
      | _ => none) = some (Regs.reset, []) := by decide +kernel

/-! ## GF(256) (V1 to V4) -/

theorem test_gf_products :
    gfMul 0xFF 0xFF = 0xE2 ∧ gfMul 0x8E 0x02 = 0x01 ∧ gfMul 0x53 0xCA = 0x8F ∧ gfMul 0x00 0x55 = 0 := by decide +kernel
theorem test_gfexp :
    answerTo 0x100000FE State.reset = some (.ok, 0x8E) ∧
    answerTo 0x100000FF State.reset = some (.error .illegalValue, 0) := by decide +kernel
theorem test_gflog :
    answerTo 0x110000FF State.reset = some (.ok, 0xAF) ∧
    answerTo 0x11000000 State.reset = some (.error .illegalValue, 0) := by decide +kernel
theorem test_gfmul_writes_acc : after 0x12000280 State.reset (·.regs.acc) = some 0x1D := by decide +kernel
theorem test_gfmac_adds_to_acc :
    answerTo 0x13000307 (withRegs { Regs.reset with acc := 0x1D }) = some (.ok, 0x14) := by decide +kernel

/-! ## Reed-Solomon (V10, V11, V17, V19) -/

theorem test_rsinit_clears_rem :
    after 0x2000001E (withRegs { Regs.reset with rem := file 30 [1, 2, 3] }) (fun t => (t.regs.ecn, entry t.regs.rem 1)) =
      some (30, 0) := by decide +kernel
theorem test_rsinit_range :
    answerTo 0x20000000 State.reset = some (.error .illegalValue, 0) ∧
    answerTo 0x2000001F State.reset = some (.error .illegalValue, 0) := by decide +kernel
theorem test_genwr_29 : after 0x21001DAA State.reset (fun t => entry t.regs.gen 29) = some 0xAA := by decide +kernel
theorem test_genwr_genrd_range :
    answerTo 0x21001E00 State.reset = some (.error .range, 0) ∧
    answerTo 0x2200001E State.reset = some (.error .range, 0) := by decide +kernel
theorem test_genrd :
    answerTo 0x2200001D (withRegs { Regs.reset with gen := setEntry (file 30 []) 29 0xAA }) = some (.ok, 0xAA) := by
  decide +kernel
theorem test_genstd_three :
    after 0x23000000 (withEcn 3) (fun t => entriesBelow t.regs.gen 4) = some [0x07, 0x0E, 0x08, 0] := by decide +kernel
theorem test_genstd_needs_rsinit : answerTo 0x23000000 State.reset = some (.error .notConfigured, 0) := by decide +kernel
/-- V12. -/
theorem test_standard_generator_ten :
    standardGenerator 10 = [0xD8, 0xC2, 0x9F, 0x6F, 0xC7, 0x5E, 0x5F, 0x71, 0x9D, 0xC1] := by decide +kernel
/-- V10, second row: every right-hand side reads the old `REM`. -/
theorem test_rsbyte_second_step :
    after 0x24000034 (withRegs { Regs.reset with ecn := 2, gen := file 30 [3, 2], rem := file 30 [0x36, 0x24] })
      (fun t => entriesBelow t.regs.rem 3) = some [0x22, 0x04, 0] := by decide +kernel
/-- V11, third row: feedback 0 is a pure shift. -/
theorem test_rsbyte_pure_shift :
    after 0x24000007 (withRegs { Regs.reset with ecn := 3, gen := file 30 [7, 14, 8], rem := file 30 [7, 14, 8] })
      (fun t => entriesBelow t.regs.rem 3) = some [0x0E, 0x08, 0x00] := by decide +kernel
/-- V10 as one run over `CW`. -/
theorem test_rsrun_three_bytes :
    after 0x26005003 { withRegs { Regs.reset with ecn := 2, gen := file 30 [3, 2] } with
      cw := [(5, 0x12), (6, 0x34), (7, 0x56)] } (fun t => entriesBelow t.regs.rem 3) = some [0x98, 0xE8, 0] := by
  decide +kernel
theorem test_rsrun_errors :
    answerTo 0x26FA0061 State.reset = some (.error .notConfigured, 0) ∧
    answerTo 0x26FA0061 (withEcn 1) = some (.error .range, 0) ∧
    answerTo 0x26000000 (withEcn 1) = some (.ok, 0) := by decide +kernel
theorem test_rsst_lowest_address_first :
    after 0x27010000 (withRegs { Regs.reset with ecn := 2, rem := file 30 [0xC4, 0x23, 0x99] }) (·.cw) =
      some [(16, 0xC4), (17, 0x23)] := by decide +kernel
theorem test_rsst_range :
    answerTo 0x27FF7000 (withEcn 10) = some (.error .range, 0) ∧ answerTo 0x27FF6000 (withEcn 10) = some (.ok, 0) := by
  decide +kernel
theorem test_rsrd :
    answerTo 0x25000001 (withRegs { Regs.reset with ecn := 2, rem := file 30 [0x98, 0xE8] }) = some (.ok, 0xE8) ∧
    answerTo 0x2500000A (withEcn 10) = some (.error .range, 0) ∧
    answerTo 0x25000005 State.reset = some (.error .notConfigured, 0) := by decide +kernel

/-! ## BCH (V20 to V23) -/

theorem test_fmtenc : answerTo 0x30000307 State.reset = some (.ok, 0x2BED) ∧
    after 0x30000100 State.reset (·.regs.fmt) = some 0x77C4 := by decide +kernel
theorem test_fmtenc_illegal :
    answerTo 0x30000400 State.reset = some (.error .illegalValue, 0) ∧
    answerTo 0x30000008 State.reset = some (.error .illegalValue, 0) := by decide +kernel
theorem test_verenc : answerTo 0x31000007 State.reset = some (.ok, 0x07C94) ∧
    after 0x31000028 State.reset (·.regs.vinfo) = some 0x28C69 := by decide +kernel
theorem test_verenc_illegal :
    answerTo 0x31000006 State.reset = some (.error .illegalValue, 0) ∧
    answerTo 0x31000029 State.reset = some (.error .illegalValue, 0) := by decide +kernel

/-! ## Memory access (V30, V31) -/

theorem test_cwwr_top : after 0x40FFF0A5 State.reset (·.cw) = some [(4095, 0xA5)] := by decide +kernel
theorem test_cwrd : answerTo 0x41001000 { State.reset with cw := [(1, 0x5B)] } = some (.ok, 0x5B) := by decide +kernel
theorem test_modwr_outside_symbol :
    after 0x42B0B001 State.reset (fun t => Memory.read t.mod (Memory.cellNumber 176 176)) = some (some true) := by
  decide +kernel
theorem test_modwr_range :
    answerTo 0x42B10001 State.reset = some (.error .range, 0) ∧
    answerTo 0x4200B100 State.reset = some (.error .range, 0) := by decide +kernel
theorem test_modrd :
    answerTo 0x43B0B000 (State.reset.setModBit 176 176 true) = some (.ok, 1) ∧
    answerTo 0x43B10000 State.reset = some (.error .range, 0) := by decide +kernel

/-! ## Placement (V40 to V45) -/

theorem test_rsvq :
    answerTo 0x50080D00 State.reset = some (.ok, 1) ∧ answerTo 0x50080C00 State.reset = some (.ok, 0) := by decide +kernel
theorem test_rsvq_range :
    answerTo 0x50150000 State.reset = some (.error .range, 0) ∧
    answerTo 0x50001500 State.reset = some (.error .range, 0) := by decide +kernel
/-- V43: version 2, `ALN` = 6, 18. -/
theorem test_alignment_pattern :
    let r := { Regs.reset with ver := 2, alncnt := 2, aln := file 7 [6, 18] }
    reserved r 16 20 = true ∧ reserved r 15 18 = false ∧ alnKept 25 6 18 = false ∧ alnKept 25 18 18 = true := by
  decide +kernel
/-- V42. -/
theorem test_mask_values :
    maskPred 1 0 1 = false ∧ maskPred 2 0 1 = true ∧ maskPred 4 2 3 = false ∧ maskPred 4 3 2 = true ∧
    maskPred 5 6 7 = true ∧ maskPred 6 255 255 = false ∧ maskPred 7 20 20 = false := by decide
theorem test_maskq :
    answerTo 0x51FFFF00 State.reset = some (.ok, 1) ∧ answerTo 0x51FFFE00 State.reset = some (.ok, 0) := by decide +kernel
theorem test_rsvcnt : answerTo 0x52000000 State.reset = some (.ok, 208) := by decide +kernel
/-- V41: the turn, and the pair that skips column 6. -/
theorem test_zigzag_turns :
    ((zigZag 21).drop 40).take 4 = [(20, 0), (19, 0), (18, 0), (17, 0)] ∧
    ((zigZag 21).drop 292).take 4 = [(8, 0), (7, 0), (5, 0), (4, 0)] ∧ (zigZag 21).length = 420 := by decide +kernel
theorem test_place_refused :
    answerTo 0x53000000 State.reset = some (.error .placeMismatch, 0) ∧
    answerTo 0x53000000 (withRegs { Regs.reset with ncw := 25, ctrl := 2 }) = some (.error .placeMismatch, 0) := by
  decide +kernel
/-- V45, and rule R183 with rule R62: the module at (19, 20) takes bit 6 of `CW[0]` under mask 0. -/
theorem test_place :
    answerTo 0x53000000 placeReady = some (.ok, 208) ∧
    after 0x53000000 { placeReady with cw := Memory.write placeReady.cw 0 0x40 }
      (fun t => (Memory.read t.mod (Memory.cellNumber 20 20), Memory.read t.mod (Memory.cellNumber 19 20))) =
      some (some true, some true) := by decide +kernel

/-! ## Text and host side (rules R96, R97; V80 to V82) -/

theorem test_assembler :
    Assembler.assemble "CSRWR VER, 0x28 ; version 40".toList = .word 0x09090028 ∧
    Assembler.assemble "FMTENC Q, 7".toList = .word 0x30000307 ∧ Assembler.assemble "CWWR 4095, 0b10100101".toList = .word 0x40FFF0A5 ∧
    Assembler.assemble "GFEXP 255".toList = .word 0x100000FF := by decide +kernel
theorem test_assembler_errors :
    Assembler.assemble "GFEXP 256".toList = .error ∧ Assembler.assemble "NOP 1".toList = .error ∧
    Assembler.assemble "  ; nothing".toList = .blank := by decide +kernel
theorem test_driver_alphanumeric :
    (Driver.packPayload (some Driver.utf8) .alphanumeric "HELLO WORLD".toList).toOption.bind (Driver.dataCodewords .alphanumeric 1 16) =
      some [0x20, 0x5B, 0x0B, 0x78, 0xD1, 0x72, 0xDC, 0x4D, 0x43,
      0x40, 0xEC, 0x11, 0xEC, 0x11, 0xEC, 0x11] := by decide +kernel
theorem test_driver_numeric :
    (Driver.packPayload (some Driver.utf8) .numeric "01234567".toList).toOption.bind (Driver.dataCodewords .numeric 1 16) =
      some [0x10, 0x20, 0x0C, 0x56, 0x61, 0x80, 0xEC, 0x11, 0xEC, 0x11,
      0xEC, 0x11, 0xEC, 0x11, 0xEC, 0x11] := by decide +kernel

/-- S3: Numeric is requested and auto-detection wins. S4. -/
theorem test_driver_mode :
    Driver.chosenMode (some Driver.utf8) (some .numeric) "Test".toList = .byte ∧ Driver.classify "01234567".toList = .numeric ∧
    Driver.classify "HELLO WORLD".toList = .alphanumeric := by decide +kernel

/-- "HELLO WORLD" at level 0 (M) under mask 2, as in V80 and P4. -/
def helloWorld : Driver.Request := ⟨"HELLO WORLD".toList, none, 0, 2, none, 1, none⟩

/-- Steps 1 and 2 of rule R240 with the counts of V12 (version 1, level M) and a capacity of 20 characters. -/
theorem test_driver_prepare :
    helloWorld.prepare (fun _ => none) (fun _ _ v => 20 * v) (fun _ _ => 16) (fun _ _ => 10) = .ok ⟨1, 0, 2, 10,
      [0x20, 0x5B, 0x0B, 0x78, 0xD1, 0x72, 0xDC, 0x4D, 0x43, 0x40, 0xEC, 0x11, 0xEC, 0x11, 0xEC, 0x11], none⟩ := by
  decide +kernel
/-- Rule R240 step 1, rules R242 and R244: the failures before any command. -/
theorem test_driver_failures :
    { helloWorld with moduleSize := 0 }.prepare (fun _ => none) (fun _ _ v => 20 * v) (fun _ _ => 16) (fun _ _ => 10) =
      .error .invalidConfiguration ∧
    { helloWorld with mask := 8 }.prepare (fun _ => none) (fun _ _ v => 20 * v) (fun _ _ => 16) (fun _ _ => 10) =
      .error .invalidConfiguration ∧
    { helloWorld with payload := "Test".toList, charset := some "x" }.prepare (fun _ => some fun _ => none)
      (fun _ _ v => 20 * v) (fun _ _ => 16) (fun _ _ => 10) = .error (.packing .invalidCharacter) ∧
    { helloWorld with payload := "Test".toList, charset := some "x" }.prepare (fun _ => none) (fun _ _ v => 20 * v)
      (fun _ _ => 16) (fun _ _ => 10) = .error (.packing .unsupportedCharset) ∧
    (Driver.packPayload none .byte []).toOption = none ∧
    helloWorld.prepare (fun _ => none) (fun _ _ _ => 10) (fun _ _ => 16) (fun _ _ => 10) = .error .capacityExceeded := by
  decide +kernel
/-- Step 3 of rule R240: `CTRL` is written only if wanted (version 1: a reset and four writes without it). -/
theorem test_driver_ctrl :
    (Driver.Job.configure ⟨1, 0, 2, 10, List.replicate 16 0, none⟩) =
      [.srst, .csrwr 0x09 1, .csrwr 0x0B 2, .csrwr 0x0E 0, .csrwr 0x0C 26] ∧
    (Driver.Job.configure ⟨1, 0, 2, 10, List.replicate 16 0, some 3⟩).getLast? = some (.csrwr 0x04 3) := by decide
/-- The last sentence of rule R240: `ERR` and `ERRCMD` are read and the error is acknowledged; the later command is not sent. -/
theorem test_driver_reports :
    (match Driver.perform .errclr [.rsinit 10, .fmtenc 4 0, .rsinit 7] State.reset with
      | .ok _ => none
      | .error r => some (r.status, r.err, r.errcmd, r.state.regs.err, r.state.regs.ecn)) =
      some (.error .illegalValue, 3, 0x30000400, 0, 10) := by decide +kernel

/-! ## Witnesses: for every statement with hypotheses, states and operands that meet all of them together; one for each clause,
at a boundary of its range -/

/-- A state that is not the reset state and meets the invariant: `ECN = 30`, an error recorded, one byte and one module at
the far ends of the memories. -/
def witnessState : State :=
  { withRegs { Regs.reset with ecn := 30, err := 3, errcmd := 0x11000000, fmt := 0x2BED } with
    cw := [(4095, 0xA5)], mod := [(Memory.cellNumber 176 176, true)] }

theorem witness_inv : witnessState.Inv where
  regs := {
    ecn_le := by decide
    rem_above := fun i _ => entry_replicate _ i
    fmt_word := .inr ⟨3, 7, by decide, by decide, by decide +kernel⟩
    vinfo_word := .inl rfl
    ver_pos := by decide
    ver_le := by decide
    ncw_le := by decide
    bitcnt_bytes := ⟨0, by decide, by decide⟩
    err_code := .inr ⟨.illegalValue, rfl⟩
    errcmd_clear := fun h => absurd h (by decide) }
  cw := by decide +kernel
  mod := by decide +kernel

theorem witness_DecodeOfEncode : (Instr.csrwr 255 65535).wellFormed = true ∧ (Instr.rsrun 4095 4095).wellFormed = true := by decide
theorem witness_EncodeOfDecode : decode 0x53000000 = some .place ∧ decode 0x09FFFFFF = some (.csrwr 0xFF 0xFFFF) := by decide
theorem witness_DecoderAgreesWithMatchAndMask :
    (⟨"MODWR", 0x42000000, 0xFF0000FE⟩ : TableRow) ∈ opcodeTable ∧ (0x42B0B001 : Word) &&& 0xFF0000FE = 0x42000000 ∧
    decode 0x42B0B001 = some (.modwr 176 176 true) := by decide
theorem witness_StepRunsDecodedCommand :
    (State.reset.present 0x53000000).pending = .command 0x53000000 :: [] ∧ decode 0x53000000 = some .place ∧
    State.reset.regs.err = 0 ∧
    [(0x00000000 : Word), 0x01000000, 0x02000000, 0x08FF0000].all (fun w => decide
      ((faultedState.present w).pending = .command w :: [] ∧ faultedState.regs.err ≠ 0 ∧ (decode w).isSome = true ∧
      (w.extractLsb' 24 8 = 0x00#8 ∨ w.extractLsb' 24 8 = 0x01#8 ∨ w.extractLsb' 24 8 = 0x02#8 ∨
        w.extractLsb' 24 8 = 0x08#8))) = true := by decide
theorem witness_LockedWordChangesNothing :
    [(0x03000000 : Word), 0x09000000, 0xFF000000].all (fun w => decide
      ((faultedState.present w).pending = .command w :: [] ∧ faultedState.regs.err ≠ 0 ∧
      w.extractLsb' 24 8 ≠ 0x00#8 ∧ w.extractLsb' 24 8 ≠ 0x01#8 ∧ w.extractLsb' 24 8 ≠ 0x02#8 ∧
      w.extractLsb' 24 8 ≠ 0x08#8)) = true := by decide
theorem witness_IllegalWordRaisesIllegalCmd :
    ((State.reset.present 0x10000100).pending = .command 0x10000100 :: [] ∧ decode 0x10000100 = none ∧
      State.reset.regs.err = 0) ∧
    [(0x00000001 : Word), 0x01000001, 0x02800000, 0x08090001].all (fun w => decide
      ((faultedState.present w).pending = .command w :: [] ∧ decode w = none ∧ faultedState.regs.err ≠ 0 ∧
      (w.extractLsb' 24 8 = 0x00#8 ∨ w.extractLsb' 24 8 = 0x01#8 ∨ w.extractLsb' 24 8 = 0x02#8 ∨
        w.extractLsb' 24 8 = 0x08#8))) = true := by decide
theorem witness_RaisingCommandWritesNothingElse :
    ∃ t, exec (.gfexp 255) State.reset = .next t ∧ t.responses = State.reset.responses ++ [⟨.error .illegalValue, 0⟩] :=
  ⟨_, rfl, rfl⟩
theorem witness_CommandsRaiseOnlyTheirOwnErrors :
    ∃ t, exec (.rsrd 30) (withEcn 30) = .next t ∧ t.responses = (withEcn 30).responses ++ [⟨.error .range, 0⟩] :=
  ⟨_, rfl, rfl⟩
theorem witness_FaultedStateIsFrozen :
    faultedState.regs.err ≠ 0 ∧ [(0x01000000 : Word), 0x02000000, 0x00000000, 0x42B0B001].all (fun w => decide
      ((faultedState.present w).pending = .command w :: [] ∧ (after w faultedState (·.draws)).isSome = true)) = true := by
  decide +kernel
theorem witness_RetryFailsInTheSameWay :
    ∃ t u, State.reset.regs.err = 0 ∧ exec (.csrwr 0x09 41) State.reset = .next t ∧
      t.responses = State.reset.responses ++ [⟨.error .illegalValue, 0⟩] ∧ exec .errclr t = .next u :=
  ⟨_, _, rfl, rfl, rfl, rfl⟩
theorem witness_OneResponsePerCommand : (State.reset.present 0xFFFFFFFF).pending = .command 0xFFFFFFFF :: [] := rfl
theorem witness_EveryStateIsSafe : State.reset.pending = [] := rfl
theorem witness_HardwareResetGivesResetValues :
    { faultedState with pending := [.hardReset] }.pending = .hardReset :: [] ∧
    { faultedState with pending := [.commandCutByReset 0x26000FFF] }.pending = .commandCutByReset 0x26000FFF :: [] := ⟨rfl, rfl⟩
theorem witness_EveryStepKeepsInvariant :
    ∃ s t, s.Inv ∧ s.pending = [.command 0x01000000] ∧ step s = .next t :=
  ⟨witnessState.present 0x01000000, _, ⟨witness_inv.regs, witness_inv.cw, witness_inv.mod⟩, rfl, rfl⟩
theorem witness_OnlyListedCommandsWrite : ∃ t, exec (.cwwr 4095 0xA5) State.reset = .next t ∧ t.cw ≠ State.reset.cw :=
  ⟨_, rfl, by decide⟩
theorem witness_AccInfluencesOnlyItsReaders :
    ∃ t, (∀ a b, Instr.gfmul 2 0x80 ≠ .gfmac a b) ∧ Instr.gfmul 2 0x80 ≠ .csrrd 0x05 ∧
      exec (.gfmul 2 0x80) State.reset = .next t :=
  ⟨_, by simp, by simp, rfl⟩
theorem witness_QueriesChangeNoState (i : Instr)
    (h : i ∈ [.nop, .csrrd 0, .gfexp 254, .gflog 1, .genrd 29, .rsrd 0, .cwrd 4095, .modrd 176 176, .rsvq 20 20,
      .maskq 255 255, .rsvcnt]) :
    ∃ n a p x y, i = .nop ∨ i = .csrrd n ∨ i = .gfexp n ∨ i = .gflog a ∨ i = .genrd n ∨ i = .rsrd n ∨ i = .cwrd p ∨
      i = .modrd x y ∨ i = .rsvq x y ∨ i = .maskq x y ∨ i = .rsvcnt := by
  fin_cases h
  exacts [⟨0, 0, 0, 0, 0, by simp⟩, ⟨0, 0, 0, 0, 0, by simp⟩, ⟨254, 0, 0, 0, 0, by simp⟩, ⟨0, 1, 0, 0, 0, by simp⟩,
    ⟨29, 0, 0, 0, 0, by simp⟩, ⟨0, 0, 0, 0, 0, by simp⟩, ⟨0, 0, 4095, 0, 0, by simp⟩, ⟨0, 0, 0, 176, 176, by simp⟩,
    ⟨0, 0, 0, 20, 20, by simp⟩, ⟨0, 0, 0, 255, 255, by simp⟩, ⟨0, 0, 0, 0, 0, by simp⟩]
theorem witness_HostWritesAreIdempotent :
    ∀ i ∈ [Instr.cwwr 4095 0xA5, .modwr 176 176 true, .genwr 29 0xAA, .csrwr 0x0C 4096],
      ∃ t u, exec i State.reset = .next t ∧ exec i t = .next u := fun i _ => by
  obtain ⟨t, ht⟩ := exec_next i State.reset
  obtain ⟨u, hu⟩ := exec_next i t
  exact ⟨t, u, ht, hu⟩

/-- The last status of one command on a state. -/
def statusOf (i : Instr) (s : State) : Option Status :=
  match exec i s with
  | .next t => t.responses.getLast?.map Response.status
  | _ => none

theorem witness_CsrrdResult :
    [0x0F, 0x17, 0xFF].all (fun n => statusOf (.csrrd n) State.reset == some (.error .illegalCsr)) = true ∧
    [0x10, 0x16].all (fun n => statusOf (.csrrd n) State.reset == some .ok) = true := by decide +kernel
theorem witness_CsrwrResult :
    [(0x04, 3), (0x05, 255), (0x09, 1), (0x09, 40), (0x0B, 7), (0x0C, 4096), (0x0E, 7), (0x10, 255), (0x16, 255)].all
      (fun p => statusOf (.csrwr p.1 p.2) State.reset == some .ok) = true := by decide +kernel
theorem witness_CsrwrResult_refusals :
    [(0x00, 0), (0x0D, 0), (0x0F, 0), (0x17, 0), (0xFF, 65535)].all
      (fun p => statusOf (.csrwr p.1 p.2) State.reset == some (.error .illegalCsr)) = true ∧
    [(0x04, 4), (0x05, 256), (0x09, 0), (0x09, 41), (0x0B, 8), (0x0C, 4097), (0x0E, 8), (0x10, 256), (0x16, 256)].all
      (fun p => statusOf (.csrwr p.1 p.2) State.reset == some (.error .illegalValue)) = true := by decide +kernel
theorem witness_CsrReadsBackWhatWasWritten :
    (∃ t, exec (.csrwr 0x09 40) State.reset = .next t ∧ t.responses = State.reset.responses ++ [⟨.ok, 0⟩]) ∧
    (0x0B ≠ 0x09 ∧ 0x0B ≠ 0x01 ∧ 0x0B ≠ 0x0A) ∧ exec (.csrrd 0x0B) State.reset = .next (State.reset.answer .ok 0) :=
  ⟨⟨_, rfl, rfl⟩, by decide, rfl⟩
theorem witness_LogInvertsExp : gfLog (gfExp 254) = 254 ∧ (0x8E : Byte) ≠ 0 ∧ gfExp (gfLog 0x8E) = 0x8E := by decide +kernel
theorem witness_GfMulIsFieldMultiplication :
    (0x53 : Byte) ≠ 0 ∧ gfMul 0x53 0x8C = 1 ∧ 256 ≤ 2 * (0x80 : Byte).toNat ∧ ¬ 256 ≤ 2 * (0x7F : Byte).toNat := by
  decide +kernel
theorem witness_GfexpAndGflogResults :
    statusOf (.gfexp 254) State.reset = some .ok ∧ statusOf (.gfexp 255) State.reset = some (.error .illegalValue) ∧
    (1 : Byte) ≠ 0 ∧ statusOf (.gflog 1) State.reset = some .ok := by decide +kernel
theorem witness_RsinitResult :
    [1, 30].all (fun n => statusOf (.rsinit n) State.reset == some .ok) = true ∧
    [0, 31].all (fun n => statusOf (.rsinit n) State.reset == some (.error .illegalValue)) = true := by decide +kernel
theorem witness_GenwrAndGenrdResults :
    statusOf (.genwr 29 0xAA) State.reset = some .ok ∧ statusOf (.genrd 29) State.reset = some .ok ∧
    statusOf (.genwr 30 0) State.reset = some (.error .range) ∧ statusOf (.genrd 30) State.reset = some (.error .range) := by
  decide +kernel
theorem witness_GenstdResult :
    (withEcn 1).regs.ecn ≠ 0 ∧ statusOf .genstd (withEcn 1) = some .ok ∧
    State.reset.regs.ecn = 0 ∧ statusOf .genstd State.reset = some (.error .notConfigured) := by decide +kernel
theorem witness_StandardGeneratorHasItsRoots :
    (standardGenerator 1).length = 1 ∧ (standardGenerator 30).length = 30 ∧
    evalPoly (monic (standardGenerator 2)) (gfExp 1) = 0 := by decide +kernel
theorem witness_RsbyteResult :
    (withEcn 30).regs.ecn ≠ 0 ∧ statusOf (.rsbyte 0xFF) (withEcn 1) = some .ok ∧
    State.reset.regs.ecn = 0 ∧ statusOf (.rsbyte 0xFF) State.reset = some (.error .notConfigured) := by decide +kernel
theorem witness_RsrunEqualsRsbytes :
    (withEcn 1).regs.ecn ≠ 0 ∧ (4095 : CwAddr).toNat + 1 ≤ 4096 ∧ 4096 < (4095 : CwAddr).toNat + 2 ∧
    State.reset.regs.ecn = 0 := by decide
theorem witness_RsstResult :
    (withEcn 10).regs.ecn ≠ 0 ∧ (4086 : CwAddr).toNat + (withEcn 10).regs.ecn.toNat ≤ 4096 ∧
    4096 < (4087 : CwAddr).toNat + (withEcn 10).regs.ecn.toNat ∧ State.reset.regs.ecn = 0 := by decide
theorem witness_RsrdResult :
    9 < (withEcn 10).regs.ecn.toNat ∧ (withEcn 10).regs.ecn ≠ 0 ∧ (withEcn 10).regs.ecn.toNat ≤ 10 ∧
    State.reset.regs.ecn = 0 := by decide
theorem witness_RemIsPolynomialRemainder :
    (withEcn 30).regs.ecn ≠ 0 ∧ (withEcn 30).regs.ecn.toNat ≤ 30 ∧
    ∀ pos < (withEcn 30).regs.ecn.toNat, entry (withEcn 30).regs.rem pos = 0 := by decide +kernel
theorem witness_CodewordLeavesNoRemainder : witnessState.regs.ecn ≠ 0 ∧ witnessState.regs.ecn.toNat ≤ 30 := by decide
theorem witness_ZeroDataGivesZeroRemainder :
    ((withEcn 30).regs.ecn ≠ 0 ∧ ∀ pos < 30, entry (withEcn 30).regs.rem pos = 0) ∧
    ((withEcn 1).regs.ecn ≠ 0 ∧ (withRegs { Regs.reset with ecn := 1, gen := file 30 [0, 7] }).regs.ecn = (withEcn 1).regs.ecn ∧
      (∀ pos < (withEcn 1).regs.ecn.toNat,
        entry (withRegs { Regs.reset with ecn := 1, gen := file 30 [0, 7] }).regs.gen pos = entry (withEcn 1).regs.gen pos) ∧
      ∀ pos < (withEcn 1).regs.ecn.toNat,
        entry (withRegs { Regs.reset with ecn := 1, gen := file 30 [0, 7] }).regs.rem pos = entry (withEcn 1).regs.rem pos) := by
  decide +kernel
theorem witness_RemainderIsLinear :
    [(0x12 : Byte), 0x34].length = [(0xAB : Byte), 0xCD].length ∧ (withEcn 30).regs.ecn ≠ 0 ∧
    (withEcn 30).regs.ecn.toNat ≤ 30 ∧ ∀ pos < 30, entry (withEcn 30).regs.rem pos = 0 := by decide +kernel
theorem witness_BchReduceIsRemainder :
    (0x537 : Nat) ≠ 0 ∧ 0x3FF < 2 ^ Nat.log2 0x537 ∧ bchReduce 0x3FF 0x537 = 0x3FF ∧ bchReduce 0x400 0x537 = 0x137 := by
  decide +kernel
theorem witness_FmtencResult :
    statusOf (.fmtenc 3 7) State.reset = some .ok ∧ statusOf (.fmtenc 4 0) State.reset = some (.error .illegalValue) ∧
    statusOf (.fmtenc 0 8) State.reset = some (.error .illegalValue) := by decide +kernel
theorem witness_VerencResult :
    [7, 40].all (fun v => statusOf (.verenc v) State.reset == some .ok) = true ∧
    [0, 6, 41].all (fun v => statusOf (.verenc v) State.reset == some (.error .illegalValue)) = true := by decide +kernel
theorem witness_InformationWordsAreCodewords :
    (3 ≤ 3 ∧ 7 ≤ 7) ∧ (7 ≤ 7 ∧ 7 ≤ 40) ∧ (7 ≤ 40 ∧ 40 ≤ 40) := by decide
theorem witness_CwwrAndCwrdResults : 4094 ≠ (4095 : CwAddr).toNat := by decide
theorem witness_ModwrAndModrdResults :
    (176 < 177 ∧ ¬ (175 = 176 ∧ 176 = 176)) ∧ statusOf (.modwr 176 176 true) State.reset = some .ok ∧
    [(177, 0), (0, 177)].all (fun p => statusOf (.modwr p.1 p.2 true) State.reset == some (.error .range)) = true := by
  decide +kernel
theorem witness_ZigZagPlaceByPlace :
    (1 ≤ 1 ∧ 1 ≤ 40 ∧ 9 < 8 + 2 * 1 ∧ 20 < 17 + 4 * 1 ∧ 1 < 2) ∧
    (zigZag (17 + 4 * 1))[2 * (9 * (17 + 4 * 1) + 20) + 1]? = some (0, 20) := by decide +kernel
theorem witness_ZigZagVisitsEachModuleOnce : 1 ≤ 1 ∧ 1 ≤ 40 ∧ 40 ≤ 40 := by decide
theorem witness_PlacementQueryResults :
    20 < 17 + 4 * State.reset.regs.ver.toNat ∧ 17 + 4 * State.reset.regs.ver.toNat ≤ 21 ∧
    [(21, 0), (0, 21)].all (fun p => statusOf (.rsvq p.1 p.2) State.reset == some (.error .range)) = true := by decide +kernel
theorem witness_PlaceMismatchIsRefused :
    freeCount (withRegs { Regs.reset with ncw := 27 }).regs < 8 * (27 : BitVec 13).toNat ∧
    (8 * (25 : BitVec 13).toNat < freeCount Regs.reset ∧ (0 : BitVec 2).getLsbD 1 = false) ∧
    (2 : BitVec 2).getLsbD 1 = true ∧ 8 * (25 : BitVec 13).toNat + 7 < freeCount Regs.reset := by decide +kernel
/-- Version 1 exactly full (V45), and version 2 with seven modules left over under `REMOK` (P6). -/
theorem witness_PlaceWritesMaskedStream :
    (1 ≤ placeReady.regs.ver.toNat ∧ placeReady.regs.ver.toNat ≤ 40 ∧ PlaceAccepted placeReady.regs) ∧
    PlaceAccepted { Regs.reset with ver := 2, alncnt := 2, aln := file 7 [6, 18], ncw := 44, ctrl := 2 } := by
  refine ⟨⟨by decide, by decide, .inl (by decide +kernel)⟩, .inr ⟨by decide, ?_, ?_⟩⟩ <;> decide +kernel
theorem witness_DataModulesAreTheUnreserved : 1 ≤ Regs.reset.ver.toNat ∧ Regs.reset.ver.toNat ≤ 40 := by decide
theorem witness_MasksDifferWherePredicatesDo :
    ∃ t u, 1 ≤ placeReady.regs.ver.toNat ∧ placeReady.regs.ver.toNat ≤ 40 ∧ PlaceAccepted placeReady.regs ∧
      exec .place placeReady = .next t ∧
      exec .place { placeReady with regs := { placeReady.regs with mask := 7 } } = .next u := by
  obtain ⟨t, ht⟩ := exec_next .place placeReady
  obtain ⟨u, hu⟩ := exec_next .place { placeReady with regs := { placeReady.regs with mask := 7 } }
  exact ⟨t, u, by decide, by decide, .inl (by decide +kernel), ht, hu⟩
theorem witness_DrawingAndPlacingCommute :
    ∃ a b c d, placeReady.Inv ∧ 8 < placeReady.regs.size ∧ 13 < placeReady.regs.size ∧
      reserved placeReady.regs 8 13 = true ∧ PlaceAccepted placeReady.regs ∧
      exec (.modwr 8 13 true) placeReady = .next a ∧ exec .place a = .next b ∧
      exec .place placeReady = .next c ∧ exec (.modwr 8 13 true) c = .next d := by
  obtain ⟨a, ha⟩ := exec_next (.modwr 8 13 true) placeReady
  obtain ⟨b, hb⟩ := exec_next .place a
  obtain ⟨c, hc⟩ := exec_next .place placeReady
  obtain ⟨d, hd⟩ := exec_next (.modwr 8 13 true) c
  refine ⟨a, b, c, d, ⟨⟨by decide, fun i _ => entry_replicate _ i, .inl rfl, .inl rfl, by decide, by decide, by decide,
    ⟨0, by decide, by decide⟩, .inl rfl, fun _ => rfl⟩, by decide +kernel, by decide⟩, by decide, by decide, by decide +kernel,
    .inl (by decide +kernel), ha, hb, hc, hd⟩

end Sys2Proof.Tests
end

section
/-! What a command writes, said once for all 27 with the checks that let it be carried out: the inversion of `exec` from
which the claims about registers and memories are derived. -/

namespace Sys2Proof.Machine

/-! ## What raising leaves (rules R274, R277) -/

theorem State.raised_of_running {s : State} (c : Cause) (h : s.regs.err = 0) :
    s.raised c = (s.setRegs { s.regs with err := c.code, errcmd := s.cmdWord }).answer (.error c) 0 := by
  rw [State.raised, if_pos h]
  rfl

theorem State.raised_of_faulted {s : State} (c : Cause) (h : s.regs.err ≠ 0) :
    s.raised c = s.answer (.error c) 0 := by
  rw [State.raised, if_neg h]
  rfl

/-! ## What carrying out leaves -/

/-- The commands that write no register and no memory and take no draw when they are carried out. -/
def asksOnly : Instr → Bool
  | .nop | .csrrd _ | .gfexp _ | .gflog _ | .genrd _ | .rsrd _ | .rsvq _ _ | .maskq _ _ | .rsvcnt => true
  | _ => false

/-- `Effect s i u`: carried out in `s`, the command `i` leaves `u` and then answers. The hypotheses of a constructor are
the checks that the command has passed. -/
inductive Effect (s : State) : Instr → State → Prop
  | asks {i : Instr} (hi : asksOnly i = true) : Effect s i s
  | srst : Effect s .srst s.softReset
  | errclr : Effect s .errclr (s.setRegs s.regs.clearError)
  | csrwr {n v : Nat} {c : Csr} (hn : Csr.ofNumber n = some c) (hv : c.legal v = true) :
      Effect s (.csrwr n v) (s.setRegs (c.write s.regs v))
  | gfmul (a b : Byte) : Effect s (.gfmul a b) (s.setRegs { s.regs with acc := gfMul a b })
  | gfmac (a b : Byte) : Effect s (.gfmac a b) (s.setRegs { s.regs with acc := s.regs.acc ^^^ gfMul a b })
  | rsinit {n : Nat} (hpos : 1 ≤ n) (hle : n ≤ Config.ecMax) : Effect s (.rsinit n)
      (s.setRegs { s.regs with ecn := BitVec.ofNat 5 n, rem := Vector.replicate Config.ecMax 0 })
  | genwr {pos : Nat} (hpos : pos < Config.ecMax) (val : Byte) : Effect s (.genwr pos val)
      (s.setRegs { s.regs with gen := setEntry s.regs.gen pos val })
  | genstd (he : s.regs.ecn ≠ 0) : Effect s .genstd
      (s.setRegs { s.regs with gen := loadEntries s.regs.gen (standardGenerator s.regs.ecn.toNat) })
  | rsbyte (he : s.regs.ecn ≠ 0) (d : Byte) : Effect s (.rsbyte d) (s.setRegs (rsStep s.regs d))
  | rsrun {a : CwAddr} {count : Nat} (he : s.regs.ecn ≠ 0) (hrun : a.toNat + count ≤ Config.cwMax) :
      Effect s (.rsrun a count) (s.drawn.setRegs ((s.cwRun a.toNat count).foldl rsStep s.regs))
  | rsst {a : CwAddr} (he : s.regs.ecn ≠ 0) (hrun : a.toNat + s.regs.ecn.toNat ≤ Config.cwMax) :
      Effect s (.rsst a) (s.setCwRun a.toNat (entriesBelow s.regs.rem s.regs.ecn.toNat))
  | fmtenc {ec mask : Nat} (hec : ec ≤ 3) (hmask : mask ≤ 7) : Effect s (.fmtenc ec mask)
      (s.setRegs { s.regs with fmt := BitVec.ofNat 15 (formatInfo ec mask) })
  | verenc {ver : Nat} (hlo : 7 ≤ ver) (hhi : ver ≤ 40) : Effect s (.verenc ver)
      (s.setRegs { s.regs with vinfo := BitVec.ofNat 18 (versionInfo ver) })
  | cwwr (a : CwAddr) (d : Byte) : Effect s (.cwwr a d) (s.setCwByte a.toNat d)
  | cwrd (a : CwAddr) : Effect s (.cwrd a) s.drawn
  | modwr {x y : Nat} (hx : x < Config.mMax) (hy : y < Config.mMax) (v : Bool) :
      Effect s (.modwr x y v) (s.setModBit x y v)
  | modrd (x y : Nat) : Effect s (.modrd x y) s.drawn
  | place (h : placeMismatch s.regs = false) : Effect s .place { s.drawn with
      mod := (placeLoop s (zigZag s.regs.size) 0 s.mod).2
      regs := { s.regs with bitcnt := BitVec.ofNat 16 (placeLoop s (zigZag s.regs.size) 0 s.mod).1 } }

/-- `Ends s i R`: the outcome `R` of the command `i` is what raising leaves of `s`, or the command's effect and its
answer. -/
def Ends (s : State) (i : Instr) (R : Result) : Prop :=
  (∃ c, R = .next (s.raised c)) ∨ ∃ u d, Effect s i u ∧ R = .next (u.answer .ok d)

theorem Ends.raise {s : State} {i : Instr} (c : Cause) : Ends s i (raise c s) := .inl ⟨c, raise_eq_raised c s⟩

theorem Ends.respond {s u : State} {i : Instr} {d : Word} (h : Effect s i u) : Ends s i (respond d u) :=
  .inr ⟨u, d, h, rfl⟩

/-- Every command ends so. -/
theorem exec_ends (i : Instr) (s : State) : Ends s i (exec i s) := by
  cases i <;> simp only [exec]
  case nop => exact .respond (.asks rfl)
  case srst => exact .respond .srst
  case errclr => exact .respond .errclr
  case csrrd n =>
    unfold execCsrrd; split
    exacts [.raise _, .respond (.asks rfl)]
  case csrwr n v =>
    unfold execCsrwr; split
    · exact .raise _
    · next c hn =>
      split_ifs with hro hv
      exacts [.raise _, .respond (.csrwr hn hv), .raise _]
  case gfexp => unfold execGfexp; split_ifs; exacts [.raise _, .respond (.asks rfl)]
  case gflog => unfold execGflog; split_ifs; exacts [.raise _, .respond (.asks rfl)]
  case gfmul a b => exact .respond (.gfmul a b)
  case gfmac a b => exact .respond (.gfmac a b)
  case rsinit => unfold execRsinit; split_ifs with h; exacts [.raise _, .respond (.rsinit (by omega) (by omega))]
  case genwr => unfold execGenwr; split_ifs with h; exacts [.raise _, .respond (.genwr (by omega) _)]
  case genrd => unfold execGenrd; split_ifs; exacts [.raise _, .respond (.asks rfl)]
  case genstd => unfold execGenstd; split_ifs with h; exacts [.raise _, .respond (.genstd h)]
  case rsbyte => unfold execRsbyte; split_ifs with h; exacts [.raise _, .respond (.rsbyte h _)]
  case rsrd => unfold execRsrd; split_ifs; exacts [.raise _, .raise _, .respond (.asks rfl)]
  case rsrun =>
    unfold execRsrun; split_ifs with he hrun
    exacts [.raise _, .raise _, .respond (.rsrun he (by omega))]
  case rsst =>
    simp only [execRsst]; split_ifs with he hrun
    exacts [.raise _, .raise _, .respond (.rsst he (by omega))]
  case fmtenc => unfold execFmtenc; split_ifs with h; exacts [.raise _, .respond (.fmtenc (by omega) (by omega))]
  case verenc => unfold execVerenc; split_ifs with h; exacts [.raise _, .respond (.verenc (by omega) (by omega))]
  case cwwr a d => exact .respond (.cwwr a d)
  case cwrd a => exact .respond (.cwrd a)
  case modwr x y v =>
    unfold execModwr; split_ifs with h
    · exact .raise _
    · obtain ⟨hx, hy⟩ := (outsideMod_eq_false_iff x y).1 (eq_false_of_ne_true h)
      exact .respond (.modwr hx hy v)
  case modrd => unfold execModrd; split_ifs; exacts [.raise _, .respond (.modrd _ _)]
  case rsvq => unfold execRsvq; split_ifs; exacts [.raise _, .respond (.asks rfl)]
  case maskq => exact .respond (.asks rfl)
  case rsvcnt => exact .respond (.asks rfl)
  case place => unfold execPlace; split_ifs with h; exacts [.raise _, .respond (.place (eq_false_of_ne_true h))]

/-- Inversion: where a command can leave the machine. -/
theorem exec_inv {i : Instr} {s t : State} (h : exec i s = .next t) :
    (∃ c, t = s.raised c) ∨ ∃ u d, Effect s i u ∧ t = u.answer .ok d := by
  simpa only [Ends, h, Host.Outcome.next.injEq] using exec_ends i s

end Sys2Proof.Machine
end

section
/-! The traversal reaches every module outside column 6 and no other, so that an accepted `PLACE` consumes the whole
stream. -/

namespace Sys2Proof.Machine

/-! ## Which modules the traversal reaches (rule R184) -/

theorem mem_pairCoords (side right : Nat) (up : Bool) (x y : Nat) :
    (x, y) ∈ pairCoords side right up ↔ y < side ∧ (x = right ∨ x = right - 1) := by
  simp only [pairCoords, List.mem_flatMap, List.mem_range, List.mem_cons, List.not_mem_nil, or_false, Prod.mk.injEq]
  constructor
  · rintro ⟨v, hv, ⟨hx, hy⟩ | ⟨hx, hy⟩⟩ <;> split_ifs at hy <;> omega
  · rintro ⟨hy, hx⟩
    refine ⟨if up then side - 1 - y else y, ?_, ?_⟩ <;> split_ifs <;> omega

/-- The columns from `right` down, but for column 6, in whatever rows the symbol has. The right column of a pair is even
down to column 8 and odd from column 5 on; a start at column 6 is moved to 5. -/
theorem mem_zigZagFrom (side pairs right : Nat) (up : Bool) (x y : Nat) (hpairs : right ≤ 2 * pairs)
    (hright : right = 0 ∨ (right % 2 = 1 ∧ right ≤ 5) ∨ (right % 2 = 0 ∧ 6 ≤ right)) :
    (x, y) ∈ zigZagFrom side pairs right up ↔ y < side ∧ x ≤ right ∧ 1 ≤ right ∧ x ≠ 6 := by
  induction pairs generalizing right up with
  | zero => simp only [zigZagFrom, List.not_mem_nil, false_iff]; omega
  | succ pairs ih =>
    unfold zigZagFrom
    split_ifs with hr h6
    · rw [List.mem_append, mem_pairCoords, ih _ _ (by omega) (by omega)]
      omega
    · rw [List.mem_append, mem_pairCoords, ih _ _ (by omega) (by omega)]
      omega
    · simp only [List.not_mem_nil, false_iff]; omega

theorem mem_zigZag (ver x y : Nat) (hver : 1 ≤ ver) :
    (x, y) ∈ zigZag (17 + 4 * ver) ↔ x < 17 + 4 * ver ∧ y < 17 + 4 * ver ∧ x ≠ 6 := by
  rw [zigZag, mem_zigZagFrom _ _ _ _ _ _ (by omega) (by omega)]
  omega

/-! ## Counting the data modules (rules R182, R187) -/

/-- The timing column is reserved, so the traversal loses no data module by leaving it out. -/
theorem reserved_column_six (r : Regs) (y : Nat) : reserved r 6 y = true := by simp [reserved, onTimingLine]

theorem mem_dataModules (r : Regs) (hver : 1 ≤ r.ver.toNat) (x y : Nat) :
    (x, y) ∈ dataModules r ↔ x < r.size ∧ y < r.size ∧ reserved r x y = false := by
  have h6 : reserved r x y = false → x ≠ 6 := fun h hx => by simp [hx, reserved_column_six] at h
  simp only [dataModules, List.mem_filter, Regs.size, mem_zigZag _ _ _ hver, Bool.not_eq_true']
  tauto

/-- `FreeCount()` counts the unreserved modules of the symbol. -/
theorem freeCount_eq_card (r : Regs) :
    freeCount r = ((Finset.range r.size ×ˢ Finset.range r.size).filter fun p => reserved r p.1 p.2 = false).card := by
  rw [Finset.card_filter, Finset.sum_product_right]
  show _ = ((List.range r.size).map _).sum
  refine congrArg List.sum (List.map_congr_left fun y _ => ?_)
  rw [← Finset.card_filter, List.countP_eq_length_filter,
    ← List.toFinset_card_of_nodup (List.nodup_range.filter _)]
  exact congrArg Finset.card (by ext x; simp)

theorem freeCount_le_length_dataModules (r : Regs) (hver : 1 ≤ r.ver.toNat) :
    freeCount r ≤ (dataModules r).length := by
  rw [freeCount_eq_card]
  refine (Finset.card_le_card fun p hp => ?_).trans (List.toFinset_card_le _)
  obtain ⟨x, y⟩ := p
  simp only [Finset.mem_filter, Finset.mem_product, Finset.mem_range, and_assoc] at hp
  exact List.mem_toFinset.2 ((mem_dataModules r hver x y).2 hp)

/-! ## What `PLACE` consumes (rule R188) -/

/-- The loop consumes one stream bit for each data module left, as long as there are bits. -/
theorem placeLoop_consumed (s : State) (l : List (Nat × Nat)) (k : Nat) (mem : List (Nat × Bool))
    (hk : k ≤ s.regs.nbits) :
    (placeLoop s l k mem).1 = min s.regs.nbits (k + (l.filter fun p => !reserved s.regs p.1 p.2).length) := by
  induction l generalizing k mem with
  | nil => simp only [placeLoop, List.filter_nil, List.length_nil]; omega
  | cons p rest ih =>
    obtain ⟨x, y⟩ := p
    unfold placeLoop
    split_ifs with hres hbits
    · simp [ih k mem hk, hres]
    · rw [ih (k + 1) _ hbits, List.filter_cons_of_pos (by simp [hres]), List.length_cons]
      omega
    · rw [ih k _ hk]; omega

/-- The checks of `PLACE` leave enough data modules for the stream. -/
theorem nbits_le_freeCount {r : Regs} (h : placeMismatch r = false) : r.nbits ≤ freeCount r := by
  simp only [placeMismatch, Bool.or_eq_false_iff, decide_eq_false_iff_not] at h
  omega

/-- `BITCNT` after an accepted `PLACE` (rule R46). -/
theorem place_consumes_stream (s : State) (hver : 1 ≤ s.regs.ver.toNat) (h : placeMismatch s.regs = false) :
    (placeLoop s (zigZag s.regs.size) 0 s.mod).1 = s.regs.nbits := by
  have hdata := (nbits_le_freeCount h).trans (freeCount_le_length_dataModules s.regs hver)
  rw [placeLoop_consumed _ _ _ _ (Nat.zero_le _), Nat.zero_add]
  exact Nat.min_eq_left hdata

/-- The loop keeps the module memory in canonical form as long as the traversal stays within it. -/
theorem wf_placeLoop (s : State) (l : List (Nat × Nat)) (k : Nat) (mem : List (Nat × Bool))
    (hl : ∀ p ∈ l, p.1 < Config.mMax ∧ p.2 < Config.mMax) (hm : Memory.wf modCells mem = true) :
    Memory.wf modCells (placeLoop s l k mem).2 = true := by
  induction l generalizing k mem with
  | nil => exact hm
  | cons p rest ih =>
    obtain ⟨x, y⟩ := p
    rw [List.forall_mem_cons] at hl
    have hcell : Memory.cellNumber x y < modCells := Memory.cellNumber_lt hl.1.1 hl.1.2
    unfold placeLoop
    split_ifs
    · exact ih k mem hl.2 hm
    · exact ih _ _ hl.2 (Memory.wf_write mem _ hcell hm)
    · exact ih _ _ hl.2 (Memory.wf_write mem _ hcell hm)

theorem zigZag_within_mod (ver : Nat) (hpos : 1 ≤ ver) (hle : ver ≤ 40) :
    ∀ p ∈ zigZag (17 + 4 * ver), p.1 < Config.mMax ∧ p.2 < Config.mMax := by
  rintro ⟨x, y⟩ hp
  rw [mem_zigZag ver x y hpos] at hp
  simp only [Config.mMax]
  omega

end Sys2Proof.Machine
end

section
/-! O18: the invariant, register by register for each update of the registers, then for each command, then for each thing
the host can do. -/

namespace Sys2Proof.Machine

/-! ## The remainder register (rules R23, R124) -/

/-- One step writes no register but `REM`. -/
theorem rsStep_frame (r : Regs) (d : Byte) : ∃ rem, rsStep r d = { r with rem := rem } := ⟨_, rfl⟩

/-- Nor do any number of steps. -/
theorem foldl_rsStep_frame (ds : List Byte) (r : Regs) : ∃ rem, ds.foldl rsStep r = { r with rem := rem } := by
  induction ds generalizing r with
  | nil => exact ⟨r.rem, rfl⟩
  | cons d ds ih =>
    obtain ⟨_, hd⟩ := rsStep_frame r d
    obtain ⟨rem, hds⟩ := ih (rsStep r d)
    exact ⟨rem, by rw [List.foldl_cons, hds, hd]⟩

/-- The entries from `ECN` on do not change. -/
theorem entry_rsStep_above (r : Regs) (d : Byte) (i : Nat) (h : r.ecn.toNat ≤ i) :
    entry (rsStep r d).rem i = entry r.rem i := by
  by_cases hi : i < Config.ecMax
  · rw [entry_rsStep r d i hi]
    exact if_neg (by omega)
  · rw [entry_outside _ _ (by omega), entry_outside _ _ (by omega)]

/-! ## The information words fit their registers (rules R40, R41, R151, R152) -/

theorem formatInfo_lt : ∀ ec ≤ 3, ∀ mask ≤ 7, formatInfo ec mask < 2 ^ 15 := by decide +kernel

theorem versionInfo_lt : ∀ ver ≤ 40, versionInfo ver < 2 ^ 18 := by decide +kernel

/-! ## Legal registers -/

namespace Regs

theorem reset_legal : Regs.reset.Legal where
  ecn_le := by decide
  rem_above i _ := entry_replicate _ i
  fmt_word := .inl rfl
  vinfo_word := .inl rfl
  ver_pos := by decide
  ver_le := by decide
  ncw_le := by decide
  bitcnt_bytes := ⟨0, by decide, by decide⟩
  err_code := .inl rfl
  errcmd_clear _ := rfl

namespace Legal

variable {r : Regs}

theorem clearError (h : r.Legal) : r.clearError.Legal := { h with err_code := .inl rfl, errcmd_clear := fun _ => rfl }

theorem recordError (h : r.Legal) (c : Cause) (w : Word) : (r.recordError c w).Legal := by
  by_cases he : r.err = 0
  · rw [recordError_of_running r c w he]
    exact { h with err_code := .inr ⟨c, rfl⟩, errcmd_clear := fun hc => absurd hc (Cause.code_ne_zero c) }
  · rwa [recordError_of_faulted r c w he]

/-- The legal written values are those that keep the register legal (rules R37 to R48). -/
theorem csrWrite (h : r.Legal) {c : Csr} {v : Nat} (hv : c.legal v = true) : (c.write r v).Legal := by
  cases c with
  | ver =>
    simp only [Csr.legal, Bool.and_eq_true, decide_eq_true_eq] at hv
    have hver : (BitVec.ofNat 6 v).toNat = v := (BitVec.toNat_ofNat _ _).trans (Nat.mod_eq_of_lt (by omega))
    exact { h with ver_pos := hv.1.trans_eq hver.symm, ver_le := hver.trans_le hv.2 }
  | ncw =>
    simp only [Csr.legal, decide_eq_true_eq] at hv
    exact { h with ncw_le := (BitVec.toNat_ofNat v 13).trans_le ((Nat.mod_le _ _).trans hv) }
  | ctrl | acc | mask | alncnt | aln => exact { h with }
  | id | status | err | errcmd | ecn | fmt | vinfo | size | bitcnt => exact h

/-- Every byte in `ACC` and in `GEN` is legal (rules R21, R22). -/
theorem acc (h : r.Legal) (v : Byte) : { r with acc := v }.Legal := { h with }

theorem gen (h : r.Legal) (file : Vector Byte Config.ecMax) : { r with gen := file }.Legal := { h with }

theorem rsinit (h : r.Legal) {n : Nat} (hle : n ≤ Config.ecMax) :
    { r with ecn := BitVec.ofNat 5 n, rem := Vector.replicate Config.ecMax 0 }.Legal :=
  { h with
    ecn_le := (BitVec.toNat_ofNat n 5).trans_le ((Nat.mod_le _ _).trans hle)
    rem_above := fun i _ => entry_replicate _ i }

theorem rsStep (h : r.Legal) (d : Byte) : (rsStep r d).Legal := by
  have habove : ∀ i, r.ecn.toNat ≤ i → entry (Machine.rsStep r d).rem i = 0 := fun i hi =>
    (entry_rsStep_above r d i hi).trans (h.rem_above i hi)
  obtain ⟨rem, hrem⟩ := rsStep_frame r d
  rw [hrem] at habove ⊢
  exact { h with rem_above := habove }

theorem foldl_rsStep (h : r.Legal) (ds : List Byte) : (ds.foldl Machine.rsStep r).Legal := by
  induction ds generalizing r with
  | nil => exact h
  | cons d ds ih =>
    rw [List.foldl_cons]
    exact ih (h.rsStep d)

theorem fmtenc (h : r.Legal) {ec mask : Nat} (hec : ec ≤ 3) (hmask : mask ≤ 7) :
    { r with fmt := BitVec.ofNat 15 (formatInfo ec mask) }.Legal :=
  have hword := (BitVec.toNat_ofNat _ 15).trans (Nat.mod_eq_of_lt (formatInfo_lt ec hec mask hmask))
  { h with fmt_word := .inr ⟨ec, mask, hec, hmask, hword⟩ }

theorem verenc (h : r.Legal) {ver : Nat} (hlo : 7 ≤ ver) (hhi : ver ≤ 40) :
    { r with vinfo := BitVec.ofNat 18 (versionInfo ver) }.Legal :=
  have hword := (BitVec.toNat_ofNat _ 18).trans (Nat.mod_eq_of_lt (versionInfo_lt ver hhi))
  { h with vinfo_word := .inr ⟨ver, hlo, hhi, hword⟩ }

/-- `BITCNT` after a `PLACE` that has consumed the whole stream. -/
theorem bitcnt (h : r.Legal) : { r with bitcnt := BitVec.ofNat 16 r.nbits }.Legal := by
  have hncw : r.ncw.toNat ≤ 4096 := h.ncw_le
  have hfits : r.nbits < 2 ^ 16 := by simp only [nbits]; omega
  exact { h with bitcnt_bytes := ⟨r.ncw.toNat, hncw, (BitVec.toNat_ofNat _ _).trans (Nat.mod_eq_of_lt hfits)⟩ }

end Legal
end Regs

/-! ## The machine -/

namespace State.Inv

variable {s : State}

/-- An answer is neither a register nor a memory. -/
theorem answer (h : s.Inv) (st : Status) (d : Word) : (s.answer st d).Inv := ⟨h.regs, h.cw, h.mod⟩

theorem setRegs (h : s.Inv) {r : Regs} (hr : r.Legal) : (s.setRegs r).Inv := ⟨hr, h.cw, h.mod⟩

theorem drawn (h : s.Inv) : s.drawn.Inv := ⟨h.regs, h.cw, h.mod⟩

theorem hardReset (s : State) : s.hardReset.Inv := ⟨Regs.reset_legal, rfl, rfl⟩

theorem raise {t : State} (h : s.Inv) {c : Cause} (ht : raise c s = .next t) : t.Inv := by
  rw [raise_eq, Host.Outcome.next.injEq] at ht
  exact ht ▸ (h.setRegs (h.regs.recordError c s.cmdWord)).answer _ _

theorem place (h : s.Inv) (hp : placeMismatch s.regs = false) : { s.drawn with
    mod := (placeLoop s (zigZag s.regs.size) 0 s.mod).2
    regs := { s.regs with bitcnt := BitVec.ofNat 16 (placeLoop s (zigZag s.regs.size) 0 s.mod).1 } }.Inv where
  regs := by
    rw [place_consumes_stream s h.regs.ver_pos hp]
    exact h.regs.bitcnt
  cw := h.cw
  mod := wf_placeLoop s _ 0 _ (zigZag_within_mod _ h.regs.ver_pos h.regs.ver_le) h.mod

/-- What a command writes keeps the invariant. -/
theorem effect {i : Instr} {u : State} (h : s.Inv) (he : Effect s i u) : u.Inv := by
  cases he with
  | asks => exact h
  | cwrd | modrd => exact h.drawn
  | srst => exact h.setRegs Regs.reset_legal
  | errclr => exact h.setRegs h.regs.clearError
  | csrwr _ hv => exact h.setRegs (h.regs.csrWrite hv)
  | gfmul | gfmac => exact h.setRegs (h.regs.acc _)
  | genwr | genstd => exact h.setRegs (h.regs.gen _)
  | rsinit _ hle => exact h.setRegs (h.regs.rsinit hle)
  | rsbyte => exact h.setRegs (h.regs.rsStep _)
  | rsrun => exact h.drawn.setRegs (h.regs.foldl_rsStep _)
  | rsst _ hrun =>
    exact ⟨h.regs, Memory.wf_writeRun _ _ _ (by rwa [entriesBelow_length]) h.cw, h.mod⟩
  | fmtenc hec hmask => exact h.setRegs (h.regs.fmtenc hec hmask)
  | verenc hlo hhi => exact h.setRegs (h.regs.verenc hlo hhi)
  | cwwr a d => exact ⟨h.regs, Memory.wf_write _ _ a.isLt h.cw, h.mod⟩
  | modwr hx hy v => exact ⟨h.regs, h.cw, Memory.wf_write _ _ (Memory.cellNumber_lt hx hy) h.mod⟩
  | place hp => exact h.place hp

theorem exec {i : Instr} {t : State} (h : s.Inv) (ht : exec i s = .next t) : t.Inv := by
  obtain ⟨c, rfl⟩ | ⟨u, d, he, rfl⟩ := exec_inv ht
  · exact h.raise (raise_eq_raised c s)
  · exact (h.effect he).answer .ok d

theorem execWord {w : Word} {t : State} (h : s.Inv) (ht : execWord w s = .next t) : t.Inv := by
  have hw : { s with cmdWord := w }.Inv := ⟨h.regs, h.cw, h.mod⟩
  unfold Machine.execWord at ht
  split_ifs at ht
  · cases ht; exact h.answer _ _
  · split at ht
    · exact hw.raise ht
    · exact hw.exec ht

theorem acceptInput {input : HostInput} {t : State} (h : s.Inv) (ht : acceptInput input s = .next t) : t.Inv := by
  cases input with
  | command w => exact h.execWord ht
  | hardReset | commandCutByReset => cases ht; exact hardReset s

end State.Inv

/-- Settles O18: whatever the host presents next, the step that takes it keeps the invariant. -/
theorem everyStepKeepsInvariant : Obligations.EveryStepKeepsInvariant := by
  intro s t h ht
  cases hp : s.pending with
  | nil =>
    rw [step, takeInput_nil s hp] at ht
    cases ht
    exact h
  | cons input rest =>
    rw [step, takeInput_cons s input rest hp] at ht
    have hs : { s with pending := rest }.Inv := ⟨h.regs, h.cw, h.mod⟩
    exact hs.acceptInput ht

end Sys2Proof.Machine
end

section
/-! O26 and O27: what `CSRWR` writes and `CSRRD` answers, through the number of a CSR and its value. -/

namespace Sys2Proof.Machine

namespace Csr

/-- The number column of rule R31. -/
def number : Csr → Nat
  | .id => 0x00
  | .status => 0x01
  | .err => 0x02
  | .errcmd => 0x03
  | .ctrl => 0x04
  | .acc => 0x05
  | .ecn => 0x06
  | .fmt => 0x07
  | .vinfo => 0x08
  | .ver => 0x09
  | .size => 0x0A
  | .mask => 0x0B
  | .ncw => 0x0C
  | .bitcnt => 0x0D
  | .alncnt => 0x0E
  | .aln i => 0x10 + i

/-- A number selects at most the CSR that has it. -/
theorem number_of_ofNumber {n : Nat} {c : Csr} (h : ofNumber n = some c) : c.number = n := by
  unfold ofNumber at h
  split at h <;> cases h <;> rfl

/-- Zero extension of a value that fits its register (rule R32). -/
theorem setWidth_ofNat {w v : Nat} (hv : v < 2 ^ w) : (BitVec.ofNat w v).setWidth 32 = BitVec.ofNat 32 v := by
  apply BitVec.eq_of_toNat_eq
  rw [BitVec.toNat_setWidth, BitVec.toNat_ofNat, BitVec.toNat_ofNat, Nat.mod_eq_of_lt hv]

/-- A CSR holds the legal value written to it (rule R224). -/
theorem read_write_self (r : Regs) {c : Csr} {v : Nat} (hv : c.legal v = true) :
    c.read (c.write r v) = BitVec.ofNat 32 v := by
  cases c with
  | ctrl | acc | mask | ncw | alncnt =>
    simp only [legal, Config.cwMax, Config.alnMax, decide_eq_true_eq] at hv
    exact setWidth_ofNat (by omega)
  | ver =>
    simp only [legal, Bool.and_eq_true, decide_eq_true_eq] at hv
    exact setWidth_ofNat (by omega)
  | aln i =>
    simp only [legal, decide_eq_true_eq] at hv
    simp only [read, write, entry_setEntry r.aln i i _ i.isLt, if_true]
    exact setWidth_ofNat (by omega)
  | id | status | err | errcmd | ecn | fmt | vinfo | size | bitcnt => contradiction

/-- Writing a CSR is seen in no other, but for the derived `STATUS` and `SIZE` (rules R34, R43). -/
theorem read_write_other (r : Regs) (v : Nat) {c c' : Csr} (hne : c' ≠ c) (hstatus : c' ≠ .status)
    (hsize : c' ≠ .size) : c'.read (c.write r v) = c'.read r := by
  cases c with
  | ctrl => cases c' with | ctrl | status => contradiction | _ => rfl
  | acc => cases c' with | acc => contradiction | _ => rfl
  | ver => cases c' with | ver | size => contradiction | _ => rfl
  | mask => cases c' with | mask => contradiction | _ => rfl
  | ncw => cases c' with | ncw => contradiction | _ => rfl
  | alncnt => cases c' with | alncnt => contradiction | _ => rfl
  | aln i =>
    cases c' with
    | aln j =>
      have hij : j.val ≠ i.val := fun h => hne (congrArg aln (Fin.ext h))
      simp only [read, write, entry_setEntry r.aln i j _ i.isLt, if_neg hij]
    | _ => rfl
  | id | status | err | errcmd | ecn | fmt | vinfo | size | bitcnt => rfl

end Csr

/-! ## The two commands (rules R223, R224) -/

theorem execCsrrd_of_implemented {n : Nat} {c : Csr} (hn : Csr.ofNumber n = some c) (s : State) :
    exec (.csrrd n) s = .next (s.answer .ok (c.read s.regs)) := by
  simp only [exec, execCsrrd, hn, respond_eq]

/-- `CSRRD` answers `OK` with nothing but the value of an implemented CSR. -/
theorem csrrd_answered {n : Nat} {d : Word} {s : State} (h : exec (.csrrd n) s = .next (s.answer .ok d)) :
    ∃ c, Csr.ofNumber n = some c ∧ c.read s.regs = d := by
  cases hn : Csr.ofNumber n with
  | none =>
    simp only [exec, execCsrrd, hn, raise_eq_raised, Host.Outcome.next.injEq] at h
    simpa [State.raised] using congrArg State.responses h
  | some c =>
    rw [execCsrrd_of_implemented hn, Host.Outcome.next.injEq] at h
    exact ⟨c, rfl, by simpa using congrArg State.responses h⟩

/-- `CSRWR` answers `OK` only when it has written a legal value, and only the CSR of its number. -/
theorem csrwr_accepted {n v : Nat} {s t : State} (h : exec (.csrwr n v) s = .next t)
    (hok : t.responses = s.responses ++ [⟨.ok, 0⟩]) :
    ∃ c, Csr.ofNumber n = some c ∧ c.legal v = true ∧ t.regs = c.write s.regs v := by
  obtain ⟨c, rfl⟩ | ⟨u, d, he, rfl⟩ := exec_inv h
  · simp [State.raised] at hok
  · cases he with
    | csrwr hn hv => exact ⟨_, hn, hv, rfl⟩
    | asks hi => contradiction

/-- Settles O26: the CSR that was written reads as written, and every other CSR is another register. -/
theorem csrReadsBackWhatWasWritten : Obligations.CsrReadsBackWhatWasWritten := by
  intro s t n v h hok
  obtain ⟨c, hn, hv, hregs⟩ := csrwr_accepted h hok
  constructor
  · rw [execCsrrd_of_implemented hn, hregs, Csr.read_write_self s.regs hv]
  · intro m d hmn hstatus hsize hread
    obtain ⟨c', hm, rfl⟩ := csrrd_answered hread
    have hnumber := Csr.number_of_ofNumber hm
    have hkept : c'.read (c.write s.regs v) = c'.read s.regs := by
      apply Csr.read_write_other
      · rintro rfl
        exact hmn (hnumber.symm.trans (Csr.number_of_ofNumber hn))
      · rintro rfl
        exact hstatus hnumber.symm
      · rintro rfl
        exact hsize hnumber.symm
    rw [execCsrrd_of_implemented hm, hregs, hkept]

/-! ## The `irq` level and `STATUS` (rules R34, R280) -/

theorem irq_iff (r : Regs) : r.irq = true ↔ r.err ≠ 0 ∧ r.ctrl.getLsbD 0 = true := by
  rw [Regs.irq, Bool.and_eq_true, faulted_iff, Regs.ien]

/-- `STATUS` bit by bit; the level implies FAULTED, so the two bits are the whole word. -/
theorem getLsbD_statusWord (r : Regs) :
    r.statusWord.getLsbD 0 = r.faulted ∧ r.statusWord.getLsbD 1 = r.irq ∧
      ∀ k, 2 ≤ k → r.statusWord.getLsbD k = false := by
  have hlow : ∀ irq faulted : Bool, (BitVec.ofNat 32 (2 * irq.toNat + faulted.toNat)).getLsbD 0 = faulted ∧
      (BitVec.ofNat 32 (2 * irq.toNat + faulted.toNat)).getLsbD 1 = irq := by decide
  refine ⟨(hlow r.irq r.faulted).1, (hlow r.irq r.faulted).2, fun k hk => ?_⟩
  have hsmall : 2 * r.irq.toNat + r.faulted.toNat < 2 ^ 2 := by
    have := r.irq.toNat_le
    have := r.faulted.toNat_le
    omega
  have hlt := hsmall.trans_le (Nat.pow_le_pow_right (by decide) hk)
  rw [Regs.statusWord, BitVec.getLsbD_ofNat, Nat.testBit_lt_two_pow hlt, Bool.and_false]

/-- Settles O27: `irq` and `STATUS` are the same two conditions on `ERR` and `CTRL`. -/
theorem irqLevelAndStatus : Obligations.IrqLevelAndStatus := by
  intro s
  obtain ⟨hfaulted, hirq, hhigh⟩ := getLsbD_statusWord s.regs
  exact ⟨irq_iff s.regs, s.regs.statusWord, execCsrrd_of_implemented (c := .status) rfl s, hirq,
    hfaulted ▸ faulted_iff s.regs, hhigh⟩

end Sys2Proof.Machine
end

section
/-! O19: the "written by" column of rule R20, from the effect of each command. -/

namespace Sys2Proof.Machine

/-- Replacing one entry of a register file leaves the others alone. -/
theorem entry_setEntry_or {n : Nat} (file : Vector Byte n) (i : Fin n) (v : Byte) (j : Nat) :
    entry (setEntry file i v) j = entry file j ∨ i.val = j := by
  rw [entry_setEntry file i j v i.isLt]
  split_ifs with h
  exacts [.inr h.symm, .inl rfl]

/-- Settles O19: a command that raises writes the error registers alone, and each effect writes its own registers and
memory alone. -/
theorem onlyListedCommandsWrite : Obligations.OnlyListedCommandsWrite := by
  intro i s t h
  obtain ⟨c, rfl⟩ | ⟨u, d, he, rfl⟩ := exec_inv h
  · by_cases hrun : s.regs.err = 0
    · simp [State.raised_of_running c hrun, hrun]
    · simp [State.raised_of_faulted c hrun]
  · cases he with
    | @csrwr _ _ c hn hv =>
      obtain rfl := Csr.number_of_ofNumber hn
      cases c with
      | aln k => simp [Csr.write, Csr.number, entry_setEntry_or]
      | ctrl | acc | ver | mask | ncw | alncnt => simp [Csr.write, Csr.number]
      | id | status | err | errcmd | ecn | fmt | vinfo | size | bitcnt => contradiction
    | rsbyte _ d =>
      obtain ⟨rem, hrem⟩ := rsStep_frame s.regs d
      simp [hrem]
    | @rsrun a count =>
      obtain ⟨rem, hrem⟩ := foldl_rsStep_frame (s.cwRun a.toNat count) s.regs
      simp [hrem]
    | asks | cwrd | modrd => simp
    | srst | errclr => simp [Regs.clearError]
    | gfmul | gfmac | rsinit | genwr | genstd | fmtenc | verenc => simp
    | rsst | cwwr | modwr | place => simp

end Sys2Proof.Machine
end

section
/-! O20: two states that differ in `ACC` alone, and two outcomes that differ in nothing else, followed through every command
but the two readers of `ACC`. -/

namespace Sys2Proof.Machine

/-- `s` with `v` in `ACC`. -/
def State.withAcc (s : State) (v : Byte) : State := { s with regs := { s.regs with acc := v } }

/-- The outcomes `R` and `R'` are next states that are the same but for `ACC`. -/
def SameButAcc (R R' : Result) : Prop := ∀ t, R = .next t → ∃ t', R' = .next t' ∧ t'.withAcc t.regs.acc = t

namespace SameButAcc

theorem respond (d : Word) {u u' : State} (h : u'.withAcc u.regs.acc = u) :
    SameButAcc (respond d u) (respond d u') := by
  rintro t ⟨⟩
  exact ⟨_, rfl, congrArg (State.answer · .ok d) h⟩

theorem raise (c : Cause) (s : State) (v : Byte) : SameButAcc (raise c s) (raise c (s.withAcc v)) := by
  intro t ht
  rw [raise_eq_raised, Host.Outcome.next.injEq] at ht
  refine ⟨_, raise_eq_raised c _, ?_⟩
  by_cases hrun : s.regs.err = 0
  · rw [← ht, State.raised_of_running c hrun, State.raised_of_running c (s := s.withAcc v) hrun]
    rfl
  · rw [← ht, State.raised_of_faulted c hrun, State.raised_of_faulted c (s := s.withAcc v) hrun]
    rfl

/-- Registers that are the same but for `ACC` are written. -/
theorem setRegs (s : State) (v : Byte) (r : Regs) :
    SameButAcc (done (s.setRegs r)) (done ((s.withAcc v).setRegs { r with acc := v })) := respond 0 rfl

/-- The same check of both states. -/
theorem ite (p : Prop) [Decidable p] {A A' B B' : Result} (hA : SameButAcc A A') (hB : SameButAcc B B') :
    SameButAcc (if p then A else B) (if p then A' else B') := by
  split_ifs
  exacts [hA, hB]

end SameButAcc

/-! ## What the commands compute from the registers does not depend on `ACC` -/

/-- `CSRRD` of another CSR than `ACC`. -/
theorem Csr.read_withAcc (s : State) (v : Byte) {c : Csr} (hc : c ≠ .acc) :
    c.read (s.withAcc v).regs = c.read s.regs := by
  cases c with
  | acc => contradiction
  | _ => rfl

theorem foldl_rsStep_withAcc (ds : List Byte) (r : Regs) (v : Byte) :
    ds.foldl rsStep { r with acc := v } = { ds.foldl rsStep r with acc := v } := by
  induction ds generalizing r with
  | nil => rfl
  | cons d ds ih =>
    rw [List.foldl_cons, List.foldl_cons, ← ih]
    rfl

theorem placeLoop_withAcc (s : State) (v : Byte) (l : List (Nat × Nat)) (k : Nat) (mem : List (Nat × Bool)) :
    placeLoop (s.withAcc v) l k mem = placeLoop s l k mem := by
  induction l generalizing k mem with
  | nil => rfl
  | cons p rest ih =>
    obtain ⟨x, y⟩ := p
    simp only [placeLoop, ih]
    rfl

/-- Every command but the readers of `ACC`. -/
theorem exec_sameButAcc (i : Instr) (s : State) (v : Byte) (hmac : ∀ a b, i ≠ .gfmac a b) (hrd : i ≠ .csrrd 0x05) :
    SameButAcc (exec i s) (exec i (s.withAcc v)) := by
  cases i <;> simp only [exec]
  case nop | srst | errclr | gfmul | cwwr | cwrd | maskq | rsvcnt => exact .respond _ rfl
  case gfexp | gflog | rsinit | genwr | genrd | fmtenc | verenc | modwr | modrd | rsvq =>
    exact .ite _ (.raise _ _ _) (.respond _ rfl)
  case rsrd | rsst => exact .ite _ (.raise _ _ _) (.ite _ (.raise _ _ _) (.respond _ rfl))
  case gfmac a b => exact absurd rfl (hmac a b)
  case csrrd n =>
    unfold execCsrrd
    cases hn : Csr.ofNumber n with
    | none => exact .raise _ _ _
    | some c =>
      have hc : c ≠ .acc := by
        rintro rfl
        exact hrd (congrArg _ (Csr.number_of_ofNumber hn).symm)
      simp only [Csr.read_withAcc s v hc]
      exact .respond _ rfl
  case csrwr n w =>
    unfold execCsrwr
    cases Csr.ofNumber n with
    | none => exact .raise _ _ _
    | some c =>
      refine .ite _ (.raise _ _ _) (.ite _ (.respond _ ?_) (.raise _ _ _))
      cases c <;> rfl
  case genstd => exact .ite _ (.raise _ _ _) (.setRegs s v _)
  case rsbyte d => exact .ite _ (.raise _ _ _) (.setRegs s v (rsStep s.regs d))
  case rsrun a count =>
    have hrem := foldl_rsStep_withAcc (s.cwRun a.toNat count) s.regs v
    exact .ite _ (.raise _ _ _) (.ite _ (.raise _ _ _) (hrem ▸ .setRegs s.drawn v _))
  case place =>
    unfold execPlace
    simp only [placeLoop_withAcc]
    exact .ite _ (.raise _ _ _) (.respond _ rfl)

/-- Settles O20: every command but the two readers of `ACC` goes the same way whatever `ACC` holds. -/
theorem accInfluencesOnlyItsReaders : Obligations.AccInfluencesOnlyItsReaders :=
  fun i s t v hmac hrd ht => exec_sameButAcc i s v hmac hrd t ht

end Sys2Proof.Machine
end

section
/-! O12: a word is locked out, illegal, or carried to `exec`, and each way ends in one response. -/

namespace Sys2Proof.Machine

/-- `Answers s rest R`: the outcome `R` is a next state with one more response than `s`, whose datum is 0 unless its status
is `OK`, and `rest` is what the host has still to present. -/
def Answers (s : State) (rest : List HostInput) (R : Result) : Prop :=
  ∃ t r, R = .next t ∧ t.responses = s.responses ++ [r] ∧ t.pending = rest ∧ (r.status ≠ .ok → r.data = 0)

theorem raise_answers (c : Cause) (s : State) : Answers s s.pending (raise c s) := ⟨_, _, rfl, rfl, rfl, fun _ => rfl⟩

theorem lockedOut_answers (s : State) : Answers s s.pending (lockedOut s) := ⟨_, _, rfl, rfl, rfl, fun _ => rfl⟩

theorem exec_answers (i : Instr) (s : State) : Answers s s.pending (exec i s) := by
  obtain ⟨c, -, h⟩ | ⟨t, h, carried⟩ := exec_cases i s
  · rw [h, ← raise_eq_raised]
    exact raise_answers c s
  · obtain ⟨d, hd⟩ := carried.response
    exact ⟨t, _, h, hd, carried.pending, fun hok => absurd rfl hok⟩

/-- Settles O12: the lock and an illegal encoding answer with datum 0, and a decoded word answers as its command does. -/
theorem oneResponsePerCommand : Obligations.OneResponsePerCommand := by
  intro s w rest hp
  rw [step, takeInput_cons s _ rest hp]
  show Answers s rest (execWord w { s with pending := rest })
  cases hlock : State.locks { s with pending := rest } w with
  | true =>
    rw [execWord_of_locked w _ hlock]
    exact lockedOut_answers { s with pending := rest }
  | false =>
    cases hd : decode w with
    | none =>
      rw [execWord_of_illegal w _ hlock hd]
      exact raise_answers .illegalCmd { s with pending := rest, cmdWord := w }
    | some i =>
      rw [execWord_of_decoded w _ i hlock hd]
      exact exec_answers i { s with pending := rest, cmdWord := w }

end Sys2Proof.Machine
end

section
/-! O21: a query that is carried out leaves the state, or takes a draw. -/

namespace Sys2Proof.Machine

/-- The commands that only ask and the two memory reads have no other effect than a draw. -/
theorem Effect.of_query {s u : State} {i : Instr} {p : CwAddr} {x y : Nat} (he : Effect s i u)
    (hi : asksOnly i = true ∨ i = .cwrd p ∨ i = .modrd x y) : u = s ∨ u = s.drawn := by
  cases he with
  | asks => exact .inl rfl
  | cwrd | modrd => exact .inr rfl
  | _ => simp [asksOnly] at hi

/-- Settles O21: a query that raises answers no `OK`, and one that is carried out writes at most the draw counter. -/
theorem queriesChangeNoState : Obligations.QueriesChangeNoState := by
  intro i s n a p x y hi
  have hquery : asksOnly i = true ∨ i = .cwrd p ∨ i = .modrd x y := by
    obtain rfl | rfl | rfl | rfl | rfl | rfl | rfl | rfl | rfl | rfl | rfl := hi <;> simp [asksOnly]
  obtain ⟨c, h⟩ | ⟨u, d, he, h⟩ := exec_ends i s
  · exact ⟨_, _, h, rfl, rfl, rfl, rfl, fun hok => by cases hok⟩
  · obtain rfl | rfl := he.of_query hquery
    · exact ⟨_, _, h, rfl, rfl, rfl, rfl, fun _ => rfl⟩
    · exact ⟨_, _, h, rfl, rfl, rfl, rfl, fun _ => rfl⟩

end Sys2Proof.Machine
end

section
/-! O22: whether a host write is refused depends on its operands alone, so a repeated one goes the same way twice, and each
update it makes is idempotent. -/

namespace Sys2Proof.Machine

/-! ## The updates -/

/-- Writing what a cell already holds changes no memory. -/
theorem Memory.write_write_self {α : Type} (m : List (Nat × α)) (a : Nat) (v : α) :
    write (write m a v) a v = write m a v := by
  induction m with
  | nil => simp [write]
  | cons cell rest ih =>
    obtain ⟨b, u⟩ := cell
    by_cases hlt : a < b
    · simp [write, hlt]
    · by_cases heq : a = b
      · simp [write, heq]
      · simp [write, hlt, heq, ih]

theorem setEntry_setEntry_self {n : Nat} (file : Vector Byte n) (i : Nat) (v : Byte) :
    setEntry (setEntry file i v) i v = setEntry file i v := Vector.setIfInBounds_setIfInBounds ..

theorem Csr.write_write_self (r : Regs) (v : Nat) (c : Csr) : c.write (c.write r v) v = c.write r v := by
  cases c with
  | aln i => simp only [write, setEntry_setEntry_self]
  | _ => rfl

/-! ## The commands -/

/-- Carried out again on the state it left, the command leaves the registers and the memories as they are. -/
def SettlesAtOnce (i : Instr) : Prop :=
  ∀ s t u, exec i s = .next t → exec i t = .next u → u.regs = t.regs ∧ u.cw = t.cw ∧ u.mod = t.mod

/-- A second error is not recorded over the first (rule R277). -/
theorem State.raised_raised_regs (s : State) (c : Cause) : ((s.raised c).raised c).regs = (s.raised c).regs := by
  have hfaulted : (s.raised c).regs.err ≠ 0 := by
    by_cases h : s.regs.err = 0
    · simpa [raised_of_running c h] using c.code_ne_zero
    · simpa [raised_of_faulted c h] using h
  rw [raised_of_faulted c hfaulted, answer_regs]

/-- A command that raises in every state. -/
theorem settlesAtOnce_of_raise {i : Instr} {c : Cause} (h : ∀ s, exec i s = raise c s) : SettlesAtOnce i := by
  intro s t u ht hu
  rw [h, raise_eq_raised, Host.Outcome.next.injEq] at ht hu
  subst ht hu
  exact ⟨s.raised_raised_regs c, rfl, rfl⟩

/-- A command that makes the same idempotent update in every state. -/
theorem settlesAtOnce_of_done {i : Instr} {f : State → State} (h : ∀ s, exec i s = done (f s))
    (hf : ∀ s, f ((f s).answer .ok 0) = (f s).answer .ok 0) : SettlesAtOnce i := by
  intro s t u ht hu
  rw [h, done_eq, Host.Outcome.next.injEq] at ht hu
  subst ht hu
  rw [hf]
  exact ⟨rfl, rfl, rfl⟩

theorem cwwr_settlesAtOnce (a : CwAddr) (d : Byte) : SettlesAtOnce (.cwwr a d) :=
  settlesAtOnce_of_done (f := fun s => s.setCwByte a.toNat d) (fun _ => rfl)
    fun s => by simp [State.setCwByte, State.answer, Memory.write_write_self]

theorem modwr_settlesAtOnce (x y : Nat) (v : Bool) : SettlesAtOnce (.modwr x y v) := by
  by_cases hout : outsideMod x y = true
  · exact settlesAtOnce_of_raise fun s => if_pos hout
  · exact settlesAtOnce_of_done (f := fun s => s.setModBit x y v) (fun s => if_neg hout)
      fun s => by simp [State.setModBit, State.answer, Memory.write_write_self]

theorem genwr_settlesAtOnce (pos : Nat) (val : Byte) : SettlesAtOnce (.genwr pos val) := by
  by_cases hout : pos ≥ Config.ecMax
  · exact settlesAtOnce_of_raise fun s => if_pos hout
  · exact settlesAtOnce_of_done (f := fun s => s.setRegs { s.regs with gen := setEntry s.regs.gen pos val })
      (fun s => if_neg hout) fun s => by simp [State.setRegs, State.answer, setEntry_setEntry_self]

theorem csrwr_settlesAtOnce (n v : Nat) : SettlesAtOnce (.csrwr n v) := by
  cases hn : Csr.ofNumber n with
  | none => exact settlesAtOnce_of_raise (c := .illegalCsr) fun s => by simp [exec, execCsrwr, hn]
  | some c =>
    by_cases hro : c.readOnly = true
    · exact settlesAtOnce_of_raise (c := .illegalCsr) fun s => by simp [exec, execCsrwr, hn, hro]
    · by_cases hv : c.legal v = true
      · exact settlesAtOnce_of_done (f := fun s => s.setRegs (c.write s.regs v))
          (fun s => by simp [exec, execCsrwr, hn, hro, hv])
          fun s => by simp [State.setRegs, State.answer, Csr.write_write_self]
      · exact settlesAtOnce_of_raise (c := .illegalValue) fun s => by simp [exec, execCsrwr, hn, hro, hv]

/-- Settles O22: each of the four host writes settles at once. -/
theorem hostWritesAreIdempotent : Obligations.HostWritesAreIdempotent := by
  intro i s t u a d x y n b hi
  obtain rfl | rfl | rfl | rfl := hi
  · exact cwwr_settlesAtOnce a d s t u
  · exact modwr_settlesAtOnce x y b s t u
  · exact genwr_settlesAtOnce n d s t u
  · exact csrwr_settlesAtOnce x y s t u

end Sys2Proof.Machine
end

section
/-! The encoding (rules R80 to R96): each format's fields cut out of a word determine its operand part and are determined
by it, so decoding inverts encoding (O2, O3). -/

namespace Sys2Proof

/-! ## Cutting fields out of a word -/

theorem ifZero_eq_some_iff {n : Nat} {i j : Instr} : ifZero n j = some i ↔ n = 0 ∧ j = i := by
  simp [ifZero]

theorem byteAt_eq_iff {w hi : Nat} {b : Byte} (h : 7 ≤ hi) : byteAt w hi = b ↔ bits w hi (hi - 7) = b.toNat := by
  have hlt : bits w hi (hi - 7) < 2 ^ 8 := by
    rw [bits, show hi + 1 - (hi - 7) = 8 by omega]
    exact Nat.mod_lt _ (by decide)
  rw [byteAt, ← BitVec.toNat_inj, BitVec.toNat_ofNat, Nat.mod_eq_of_lt hlt]

theorem addrField_eq_iff {w : Nat} {a : CwAddr} : addrField w = a ↔ bits w 23 12 = a.toNat := by
  rw [addrField, ← BitVec.toNat_inj, BitVec.toNat_ofNat, bits, Nat.mod_mod]

/-! ## The formats (rules R83 to R89): operands that fit are the fields of the word's low 24 bits, and the bits that no
operand uses are 0 -/

theorem formatB_iff (w b : Nat) : b < 2 ^ 8 ∧ formatB b = w % 2 ^ 24 ↔ bits w 23 8 = 0 ∧ bits w 7 0 = b := by
  simp only [formatB, bits]
  omega

theorem formatBB_iff (w a b : Nat) : (a < 2 ^ 8 ∧ b < 2 ^ 8) ∧ formatBB a b = w % 2 ^ 24 ↔
    bits w 23 16 = 0 ∧ bits w 15 8 = a ∧ bits w 7 0 = b := by
  simp only [formatBB, bits]
  omega

theorem formatC_iff (w n v : Nat) : (n < 2 ^ 8 ∧ v < 2 ^ 16) ∧ formatC n v = w % 2 ^ 24 ↔
    bits w 23 16 = n ∧ bits w 15 0 = v := by
  simp only [formatC, bits]
  omega

theorem formatA_iff (w : Nat) (a : CwAddr) (d : Nat) : d < 2 ^ 8 ∧ formatA a d = w % 2 ^ 24 ↔
    bits w 11 8 = 0 ∧ addrField w = a ∧ bits w 7 0 = d := by
  have := a.isLt
  simp only [formatA, addrField_eq_iff, bits]
  omega

theorem formatAA_iff (w : Nat) (a : CwAddr) (c : Nat) : c < 2 ^ 12 ∧ formatAA a c = w % 2 ^ 24 ↔
    addrField w = a ∧ bits w 11 0 = c := by
  have := a.isLt
  simp only [formatAA, addrField_eq_iff, bits]
  omega

theorem formatXY_iff (w x y v : Nat) : (x < 2 ^ 8 ∧ y < 2 ^ 8) ∧ v < 2 ∧ formatXY x y v = w % 2 ^ 24 ↔
    bits w 7 1 = 0 ∧ bits w 23 16 = x ∧ bits w 15 8 = y ∧ bits w 0 0 = v := by
  simp only [formatXY, bits]
  omega

theorem formatXY_zero_iff (w x y : Nat) : (x < 2 ^ 8 ∧ y < 2 ^ 8) ∧ formatXY x y 0 = w % 2 ^ 24 ↔
    bits w 7 0 = 0 ∧ bits w 23 16 = x ∧ bits w 15 8 = y := by
  simp only [formatXY, bits]
  omega

theorem formatA_zero_iff (w : Nat) (a : CwAddr) : formatA a 0 = w % 2 ^ 24 ↔ bits w 11 0 = 0 ∧ addrField w = a := by
  have := a.isLt
  simp only [formatA, addrField_eq_iff, bits]
  omega

theorem formatC_zero_iff (w n : Nat) : n < 2 ^ 8 ∧ formatC n 0 = w % 2 ^ 24 ↔ bits w 15 0 = 0 ∧ bits w 23 16 = n := by
  simp only [formatC, bits]
  omega

theorem formatZ_iff (w : Nat) : 0 = w % 2 ^ 24 ↔ bits w 23 0 = 0 := by
  simp only [bits]
  omega

/-! ## The decoder -/

/-- The module value of format XY. -/
theorem decide_lowBit_eq_iff (w : Nat) (v : Bool) : decide (bits w 0 0 = 1) = v ↔ bits w 0 0 = v.toNat := by
  have : bits w 0 0 < 2 := Nat.mod_lt _ (by decide)
  cases v <;> simp; omega

/-- The decoder, one constructor at a time: its arm for the command's own opcode cuts out the command's operands. -/
theorem decodeFields_opcode_iff (i : Instr) (w : Nat) :
    decodeFields i.opcode w = some i ↔ i.wellFormed = true ∧ i.operandBits = w % 2 ^ 24 := by
  cases i <;> simp only [Instr.opcode, decodeFields, Instr.wellFormed, Instr.operandBits, fitsField, ifZero_eq_some_iff,
    Bool.and_eq_true, decide_eq_true_eq, Option.some.injEq]
  case nop | srst | errclr | genstd | rsvcnt | place => simpa using (formatZ_iff w).symm
  case csrrd n => simpa using (formatC_zero_iff w n).symm
  case csrwr n v => simpa using (formatC_iff w n v).symm
  case gfexp n | rsinit n | genrd n | rsrd n | verenc n => simpa using (formatB_iff w n).symm
  case gflog d | rsbyte d => simpa [byteAt_eq_iff, d.isLt] using (formatB_iff w d.toNat).symm
  case gfmul a b | gfmac a b =>
    simpa [byteAt_eq_iff, a.isLt, b.isLt] using (formatBB_iff w a.toNat b.toNat).symm
  case genwr n d => simpa [byteAt_eq_iff, d.isLt] using (formatBB_iff w n d.toNat).symm
  case fmtenc a b => simpa using (formatBB_iff w a b).symm
  case rsrun a n => simpa using (formatAA_iff w a n).symm
  case cwwr a d => simpa [byteAt_eq_iff, d.isLt] using (formatA_iff w a d.toNat).symm
  case rsst a | cwrd a => simpa using (formatA_zero_iff w a).symm
  case modwr x y v =>
    simpa [decide_lowBit_eq_iff, v.toNat_lt] using (formatXY_iff w x y v.toNat).symm
  case modrd x y | rsvq x y | maskq x y => simpa using (formatXY_zero_iff w x y).symm

/-- No arm answers with a command of another opcode; the arms of `CSRWR` and `RSRUN` have no must-be-zero bits. -/
theorem opcode_of_decodeFields {op w : Nat} {i : Instr} (h : decodeFields op w = some i) : i.opcode = op := by
  unfold decodeFields at h
  split at h
  case h_28 => cases h
  case h_5 | h_16 => obtain rfl := Option.some.inj h; rfl
  all_goals obtain ⟨-, rfl⟩ := ifZero_eq_some_iff.1 h; rfl

/-! ## The encoder -/

/-- The per-command laws of the opcode field, for any command. -/
theorem opcodeField (i : Instr) : Laws.OpcodeField.Statement i := by
  open Laws.OpcodeField in
  cases i
  exacts [nop, srst, errclr, csrrd _, csrwr _ _, gfexp _, gflog _, gfmul _ _, gfmac _ _, rsinit _, genwr _ _, genrd _,
    genstd, rsbyte _, rsrd _, rsrun _ _, rsst _, fmtenc _ _, verenc _, cwwr _ _, cwrd _, modwr _ _ _, modrd _ _,
    rsvq _ _, maskq _ _, rsvcnt, place]

/-- A word is made of its opcode and its operand part (rule R81). -/
theorem encode_eq_iff {i : Instr} (hw : i.wellFormed = true) (w : Word) :
    encode i = w ↔ i.opcode = opcodeOf w ∧ i.operandBits = w.toNat % 2 ^ 24 := by
  have hbits := (opcodeField i hw).1
  have hop := Laws.OpcodeField.opcode_lt i
  have hlt := w.isLt
  rw [encode, ← BitVec.toNat_inj, BitVec.toNat_ofNat, opcodeOf, bits]
  omega

/-- Decoding and encoding are inverse: a word decodes to `i` exactly when `i` is well-formed and `w` is its word. -/
theorem decode_eq_some_iff {w : Word} {i : Instr} : decode w = some i ↔ i.wellFormed = true ∧ encode i = w := by
  constructor
  · intro h
    have hop := opcode_of_decodeFields h
    rw [decode, ← hop, decodeFields_opcode_iff] at h
    obtain ⟨hw, hbits⟩ := h
    exact ⟨hw, (encode_eq_iff hw w).2 ⟨hop, hbits⟩⟩
  · rintro ⟨hw, h⟩
    obtain ⟨hop, hbits⟩ := (encode_eq_iff hw w).1 h
    rw [decode, ← hop, decodeFields_opcode_iff]
    exact ⟨hw, hbits⟩

/-- Settles O2: a well-formed command and its word determine each other. -/
theorem decodeOfEncode : Obligations.DecodeOfEncode := fun _ hw => decode_eq_some_iff.2 ⟨hw, rfl⟩

/-- Settles O3: the other direction of the same equivalence. -/
theorem encodeOfDecode : Obligations.EncodeOfDecode := fun _ _ h => decode_eq_some_iff.1 h

end Sys2Proof
end

section
/-! O4: a row's mask covers the opcode and one run of must-be-zero bits, so a row selects a word exactly when the
decoder's arm for that opcode accepts it. -/

namespace Sys2Proof

/-! ## Masks as fields -/

/-- The mask of the bits `hi` down to `lo`; of no bit if `hi < lo`. -/
def fieldMask (hi lo : Nat) : Word := (BitVec.allOnes (hi + 1 - lo)).setWidth 32 <<< lo

theorem getLsbD_fieldMask (hi lo k : Nat) :
    (fieldMask hi lo).getLsbD k = true ↔ k < 32 ∧ lo ≤ k ∧ k ≤ hi := by
  simp only [fieldMask, BitVec.getLsbD_shiftLeft, BitVec.getLsbD_setWidth, BitVec.getLsbD_allOnes, Bool.and_eq_true,
    Bool.not_eq_true', decide_eq_true_eq, decide_eq_false_iff_not]
  omega

/-- What the mask leaves of a word is the field, in its place. -/
theorem toNat_and_fieldMask (w : Word) (hi lo : Nat) :
    (w &&& fieldMask hi lo).toNat = bits w.toNat hi lo * 2 ^ lo := by
  refine Nat.eq_of_testBit_eq fun k => Bool.eq_iff_iff.2 ?_
  rw [BitVec.testBit_toNat, BitVec.getLsbD_and, Nat.testBit_mul_two_pow, bits, Nat.testBit_mod_two_pow,
    Nat.testBit_div_two_pow, Bool.and_eq_true, getLsbD_fieldMask]
  simp only [Bool.and_eq_true, decide_eq_true_eq]
  by_cases hk : lo ≤ k
  · have hlt : w.getLsbD k = true → k < 32 := BitVec.lt_of_getLsbD
    rw [Nat.sub_add_cancel hk, BitVec.testBit_toNat]
    grind
  · simp [hk]

/-- A field below the opcode and the opcode do not overlap, so together they are compared as two numbers. -/
theorem and_opcodeMask_or_eq_iff (w : Word) {op hi : Nat} (lo : Nat) (hop : op < 2 ^ 8) (hhi : hi < 24) :
    w &&& (fieldMask 31 24 ||| fieldMask hi lo) = BitVec.ofNat 32 (op * 2 ^ 24) ↔
      opcodeOf w = op ∧ bits w.toNat hi lo = 0 := by
  have hdisjoint : w &&& fieldMask 31 24 &&& (w &&& fieldMask hi lo) = 0#32 := by
    refine BitVec.eq_of_getLsbD_eq fun k _ => (eq_false_of_ne_true ?_).trans BitVec.getLsbD_zero.symm
    simp only [BitVec.getLsbD_and, Bool.and_eq_true, getLsbD_fieldMask]
    omega
  have hfield : bits w.toNat hi lo * 2 ^ lo < 2 ^ 24 := by
    rw [← toNat_and_fieldMask]
    refine Nat.lt_pow_two_of_testBit _ fun k hk => eq_false_of_ne_true ?_
    rw [BitVec.testBit_toNat, BitVec.getLsbD_and, Bool.and_eq_true, getLsbD_fieldMask]
    omega
  rw [BitVec.and_or_distrib_left, ← BitVec.add_eq_or_of_and_eq_zero _ _ hdisjoint, ← BitVec.toNat_inj, BitVec.toNat_add,
    toNat_and_fieldMask, toNat_and_fieldMask, BitVec.toNat_ofNat, opcodeOf]
  have : bits w.toNat 31 24 < 2 ^ 8 := Nat.mod_lt _ (by decide)
  have : bits w.toNat hi lo = 0 ↔ bits w.toNat hi lo * 2 ^ lo = 0 := by simp
  omega

/-! ## Rows as arms of the decoder -/

/-- The row `r` and the decoder's arm for the opcode `op` say the same: the must-be-zero bits are `w[hi:lo]` (none if
`hi < lo`), and the command is `f w`. -/
structure TableRow.IsArm (r : TableRow) (op hi lo : Nat) (f : Nat → Instr) : Prop where
  op_lt : op < 2 ^ 8 := by decide
  hi_lt : hi < 24 := by decide
  mtch : r.mtch = BitVec.ofNat 32 (op * 2 ^ 24) := by decide
  mask : r.mask = fieldMask 31 24 ||| fieldMask hi lo := by decide
  decodes (w : Nat) : decodeFields op w = ifZero (bits w hi lo) (f w) := by exact fun _ => rfl
  mnemonic (w : Nat) : (f w).mnemonic = r.mnemonic := by exact fun _ => rfl

/-- An arm without must-be-zero bits, in the form of the others. -/
theorem some_eq_ifZero_noBits (w : Nat) (i : Instr) : some i = ifZero (bits w 0 1) i := (if_pos (Nat.mod_one _)).symm

/-- Every row of the table is an arm of the decoder. -/
theorem isArm_of_mem_opcodeTable : ∀ r ∈ opcodeTable, ∃ op hi lo f, r.IsArm op hi lo f := by
  simp only [opcodeTable, opcodeTableLow, opcodeTableHigh, List.forall_mem_cons, List.cons_append, List.nil_append]
  refine ⟨⟨0x00, 23, 0, _, {}⟩, ⟨0x01, 23, 0, _, {}⟩, ⟨0x02, 23, 0, _, {}⟩, ⟨0x08, 15, 0, _, {}⟩,
    ⟨0x09, 0, 1, _, { decodes := fun _ => some_eq_ifZero_noBits _ _ }⟩, ⟨0x10, 23, 8, _, {}⟩, ⟨0x11, 23, 8, _, {}⟩,
    ⟨0x12, 23, 16, _, {}⟩, ⟨0x13, 23, 16, _, {}⟩, ⟨0x20, 23, 8, _, {}⟩, ⟨0x21, 23, 16, _, {}⟩, ⟨0x22, 23, 8, _, {}⟩,
    ⟨0x23, 23, 0, _, {}⟩, ⟨0x24, 23, 8, _, {}⟩, ⟨0x25, 23, 8, _, {}⟩,
    ⟨0x26, 0, 1, _, { decodes := fun _ => some_eq_ifZero_noBits _ _ }⟩, ⟨0x27, 11, 0, _, {}⟩, ⟨0x30, 23, 16, _, {}⟩,
    ⟨0x31, 23, 8, _, {}⟩, ⟨0x40, 11, 8, _, {}⟩, ⟨0x41, 11, 0, _, {}⟩, ⟨0x42, 7, 1, _, {}⟩, ⟨0x43, 7, 0, _, {}⟩,
    ⟨0x50, 7, 0, _, {}⟩, ⟨0x51, 7, 0, _, {}⟩, ⟨0x52, 23, 0, _, {}⟩, ⟨0x53, 23, 0, _, {}⟩, nofun⟩

theorem TableRow.IsArm.selects_iff {r : TableRow} {op hi lo : Nat} {f : Nat → Instr} (arm : r.IsArm op hi lo f)
    (w : Word) : w &&& r.mask = r.mtch ↔ opcodeOf w = op ∧ bits w.toNat hi lo = 0 := by
  rw [arm.mask, arm.mtch, and_opcodeMask_or_eq_iff w lo arm.op_lt arm.hi_lt]

/-- Every command's opcode has a row. -/
theorem exists_row_of_opcode (i : Instr) : ∃ r ∈ opcodeTable, r.mtch = BitVec.ofNat 32 (i.opcode * 2 ^ 24) := by
  cases i <;> simp only [Instr.opcode] <;> decide

/-- Settles O4: a row and its arm ask the same of a word, and every opcode that decodes has a row. -/
theorem decoderAgreesWithMatchAndMask : Obligations.DecoderAgreesWithMatchAndMask := by
  refine fun w => ⟨fun r hr hw => ?_, fun i hd => ?_⟩
  · obtain ⟨op, hi, lo, f, arm⟩ := isArm_of_mem_opcodeTable r hr
    obtain ⟨hop, hzero⟩ := (arm.selects_iff w).1 hw
    refine ⟨f w.toNat, ?_, arm.mnemonic _⟩
    rw [decode, hop, arm.decodes, ifZero_eq_some_iff]
    exact ⟨hzero, rfl⟩
  · obtain ⟨r, hr, hmtch⟩ := exists_row_of_opcode i
    obtain ⟨op, hi, lo, f, arm⟩ := isArm_of_mem_opcodeTable r hr
    have hop : op = opcodeOf w := by
      have hop := congrArg BitVec.toNat (arm.mtch.symm.trans hmtch)
      have := arm.op_lt
      have := Laws.OpcodeField.opcode_lt i
      rw [← opcode_of_decodeFields hd]
      simp only [BitVec.toNat_ofNat] at hop
      omega
    rw [decode, ← hop, arm.decodes, ifZero_eq_some_iff] at hd
    obtain ⟨hzero, rfl⟩ := hd
    exact ⟨r, hr, (arm.selects_iff w).2 ⟨hop.symm, hzero⟩, arm.mnemonic _⟩

end Sys2Proof
end

section
/-! O1, O5, O7: words written out, and a step on a word that the lock lets through (rule R94). -/

namespace Sys2Proof.Machine

/-- Settles O1: each word evaluates. -/
theorem specWordsDecode : Obligations.SpecWordsDecode := by
  unfold Obligations.SpecWordsDecode
  decide

/-- The opcode as a number and as a field of the word. -/
theorem opcodeOf_eq_iff (w : Word) (op : BitVec 8) : opcodeOf w = op.toNat ↔ w.extractLsb' 24 8 = op := by
  rw [← BitVec.toNat_inj, BitVec.extractLsb'_toNat, Nat.shiftRight_eq_div_pow, opcodeOf, bits]

/-- The words that the lock lets through (rule R275). -/
theorem State.locks_eq_false_iff (s : State) (w : Word) : s.locks w = false ↔
    s.regs.err = 0 ∨ w.extractLsb' 24 8 = 0x00#8 ∨ w.extractLsb' 24 8 = 0x01#8 ∨ w.extractLsb' 24 8 = 0x02#8 ∨
      w.extractLsb' 24 8 = 0x08#8 := by
  rw [locks, Bool.and_eq_false_iff, faulted_eq_false_iff]
  simp only [Bool.not_eq_false', lockExempt, Bool.or_eq_true, beq_iff_eq, or_assoc, ← opcodeOf_eq_iff]
  rfl

/-- A step on a presented word. -/
theorem step_of_command {s : State} {w : Word} {rest : List HostInput} (hp : s.pending = .command w :: rest) :
    step s = execWord w { s with pending := rest } := takeInput_cons s _ rest hp

/-- Settles O5: the lock asks the registers and the opcode alone, and taking the word from the port changes neither. -/
theorem stepRunsDecodedCommand : Obligations.StepRunsDecodedCommand := by
  intro s w rest i hp hd hopen
  rw [step_of_command hp]
  exact execWord_of_decoded w { s with pending := rest } i ((s.locks_eq_false_iff w).2 hopen) hd

/-- A step on a presented word that the lock lets through and that is no command. -/
theorem step_of_illegal {s : State} {w : Word} {rest : List HostInput} (hp : s.pending = .command w :: rest)
    (hd : decode w = none) (hopen : s.locks w = false) :
    step s = .next ({ s with pending := rest, cmdWord := w }.raised .illegalCmd) := by
  rw [step_of_command hp, execWord_of_illegal w { s with pending := rest } hopen hd, raise_eq_raised]

/-- Settles O7: such a word raises, and `raised` records the error if none was recorded. -/
theorem illegalWordRaisesIllegalCmd : Obligations.IllegalWordRaisesIllegalCmd := by
  refine fun s w rest hp hd => ⟨fun hrun => ?_, fun hfaulted hexempt => ?_⟩
  · have hopen := (s.locks_eq_false_iff w).2 (.inl hrun)
    exact (step_of_illegal hp hd hopen).trans (congrArg _ (State.raised_of_running _ hrun))
  · have hopen := (s.locks_eq_false_iff w).2 (.inr hexempt)
    exact (step_of_illegal hp hd hopen).trans (congrArg _ (State.raised_of_faulted _ hfaulted))

end Sys2Proof.Machine
end

section
/-! The antilog table as the orbit of 1 under doubling: doubling is XOR-linear, and 1 returns to itself after 255 steps and
not before (rules R100, R101). -/

namespace Sys2Proof.Machine

/-! ## Doubling -/

theorem gfDouble_eq_xor (a : Byte) : gfDouble a = (a <<< 1) ^^^ if a.msb then 0x1D else 0 := by
  have hbit : (a.setWidth 9 <<< 1).getLsbD 8 = a.msb := by simp [BitVec.msb_eq_getLsbD_last]
  have hlow : (a.setWidth 9 <<< 1).setWidth 8 = a <<< 1 := by ext i hi; simp
  simp only [gfDouble, hbit, BitVec.setWidth_xor, hlow]
  split
  · rfl
  · exact BitVec.xor_zero.symm

/-- Rule R100's recurrence over the integers. -/
theorem toNat_gfDouble : ∀ a : Byte, (gfDouble a).toNat =
    if 256 ≤ 2 * a.toNat then (2 * a.toNat) ^^^ 0x11D else 2 * a.toNat := by decide +kernel

theorem gfDouble_xor (a b : Byte) : gfDouble (a ^^^ b) = gfDouble a ^^^ gfDouble b := by
  have hreduce : (if a.msb ^^ b.msb then 0x1D else 0 : Byte) =
      (if a.msb then 0x1D else 0) ^^^ if b.msb then 0x1D else 0 := by
    cases a.msb <;> cases b.msb <;> rfl
  rw [gfDouble_eq_xor, gfDouble_eq_xor a, gfDouble_eq_xor b, BitVec.shiftLeft_xor_distrib, BitVec.msb_xor, hreduce]
  ac_rfl

theorem iterate_gfDouble_xor (n : Nat) (a b : Byte) :
    gfDouble^[n] (a ^^^ b) = gfDouble^[n] a ^^^ gfDouble^[n] b :=
  (show Function.Semiconj₂ gfDouble (· ^^^ ·) (· ^^^ ·) from gfDouble_xor).iterate n a b

@[simp] theorem iterate_gfDouble_zero (n : Nat) : gfDouble^[n] 0#8 = 0#8 := Function.iterate_fixed (by decide) n

/-! ## The period of 1 -/

theorem isPeriodicPt_gfDouble : Function.IsPeriodicPt gfDouble 255 1 :=
  show gfDouble^[255] 1 = 1 by decide +kernel

/-- The period of 1 divides 255, and no smaller divisor of 255 is one. -/
theorem minimalPeriod_gfDouble : Function.minimalPeriod gfDouble 1 = 255 := by
  have hleast : ∀ d ∈ Nat.divisors 255, gfDouble^[d] 1 = 1 → d = 255 := by decide +kernel
  have hmem := Nat.mem_divisors.2 ⟨isPeriodicPt_gfDouble.minimalPeriod_dvd, by decide⟩
  exact hleast _ hmem (Function.isPeriodicPt_minimalPeriod gfDouble 1)

/-! ## The antilog table -/

theorem gfPowersFrom_eq_iterate (count : Nat) (a : Byte) :
    gfPowersFrom count a = List.iterate gfDouble a count := by
  induction count generalizing a with
  | zero => rfl
  | succ count ih => rw [gfPowersFrom, List.iterate, ih]

theorem length_expTable : expTable.length = 255 := by
  rw [expTable, gfPowersFrom_eq_iterate, List.length_iterate]

theorem gfExp_eq_getElem {i : Nat} (hi : i < 255) : gfExp i = expTable[i]'(hi.trans_eq length_expTable.symm) :=
  List.getD_eq_getElem _ _ _

theorem gfExp_eq_iterate {i : Nat} (hi : i < 255) : gfExp i = gfDouble^[i] 1 := by
  rw [gfExp, expTable, gfPowersFrom_eq_iterate, List.getD_eq_getElem?_getD, List.getElem?_iterate _ _ _ _ hi,
    Option.getD_some]

theorem gfExp_mod (i : Nat) : gfExp (i % 255) = gfDouble^[i] 1 :=
  (gfExp_eq_iterate (Nat.mod_lt _ (by decide))).trans (isPeriodicPt_gfDouble.iterate_mod_apply i)

theorem gfExp_succ {i : Nat} (hi : i < 254) : gfExp (i + 1) = gfDouble (gfExp i) := by
  rw [gfExp_eq_iterate (by omega), gfExp_eq_iterate (by omega), Function.iterate_succ_apply']

/-- Doubling 0 gives 0 for ever, so that a 0 in the table would never lead back to 1. -/
theorem gfExp_ne_zero {i : Nat} (hi : i < 255) : gfExp i ≠ 0 := by
  intro hzero
  rw [gfExp_eq_iterate hi] at hzero
  have hreturn : gfDouble^[255 - i] (gfDouble^[i] 1) = 1 := by
    rw [← Function.iterate_add_apply, Nat.sub_add_cancel hi.le]
    exact isPeriodicPt_gfDouble
  rw [hzero] at hreturn
  exact absurd ((iterate_gfDouble_zero _).symm.trans hreturn) (by decide)

theorem gfExp_injective {i j : Nat} (hi : i < 255) (hj : j < 255) (h : gfExp i = gfExp j) : i = j := by
  rw [gfExp_eq_iterate hi, gfExp_eq_iterate hj] at h
  rw [← minimalPeriod_gfDouble] at hi hj
  exact Function.iterate_injOn_Iio_minimalPeriod hi hj h

theorem nodup_expTable : expTable.Nodup := by
  refine List.nodup_iff_injective_getElem.2 fun i j h => Fin.ext ?_
  have hi := i.isLt.trans_eq length_expTable
  have hj := j.isLt.trans_eq length_expTable
  refine gfExp_injective hi hj ?_
  rwa [gfExp_eq_getElem hi, gfExp_eq_getElem hj]

theorem zero_not_mem_expTable : (0 : Byte) ∉ expTable := by
  intro h
  obtain ⟨i, hi, hzero⟩ := List.getElem_of_mem h
  rw [length_expTable] at hi
  exact gfExp_ne_zero hi ((gfExp_eq_getElem hi).trans hzero)

/-- The table has 255 distinct entries besides 0, and there are no more than 256 bytes. -/
theorem mem_expTable {a : Byte} (ha : a ≠ 0) : a ∈ expTable := by
  by_contra hout
  have hnodup : (0 :: a :: expTable).Nodup := by
    have hzero : (0 : Byte) ∉ a :: expTable := List.not_mem_cons_of_ne_of_not_mem ha.symm zero_not_mem_expTable
    exact List.nodup_cons.2 ⟨hzero, List.nodup_cons.2 ⟨hout, nodup_expTable⟩⟩
  have hcard : Fintype.card Byte = 256 := FinEnum.card_eq_fintypeCard.symm
  have hlen := hnodup.length_le_card
  rw [hcard, List.length_cons, List.length_cons, length_expTable] at hlen
  omega

/-! ## The log table -/

@[simp] theorem gfLog_gfExp {i : Nat} (hi : i < 255) : gfLog (gfExp i) = i := by
  rw [gfLog, gfExp_eq_getElem hi, nodup_expTable.idxOf_getElem]

theorem gfLog_lt {a : Byte} (ha : a ≠ 0) : gfLog a < 255 :=
  (List.idxOf_lt_length_iff.2 (mem_expTable ha)).trans_eq length_expTable

theorem gfExp_gfLog {a : Byte} (ha : a ≠ 0) : gfExp (gfLog a) = a := by
  rw [gfExp_eq_getElem (gfLog_lt ha)]
  exact List.getElem_idxOf _

theorem iterate_gfLog {a : Byte} (ha : a ≠ 0) : gfDouble^[gfLog a] 1 = a := by
  rw [← gfExp_eq_iterate (gfLog_lt ha), gfExp_gfLog ha]

/-- Settles O28: the table lists the orbit of 1, whose period is 255. -/
theorem expTableFollowsRecurrence : Obligations.ExpTableFollowsRecurrence := by
  have hlast : gfExp 254 = 0x8E := by decide +kernel
  refine ⟨length_expTable, rfl, fun i hi => ?_, ?_, hlast, fun _ => gfExp_ne_zero, fun _ hi _ hj => gfExp_injective hi hj⟩
  · rw [gfExp_succ hi, toNat_gfDouble]
  · rw [hlast]
    decide

/-- Settles O29: the table lists every value but 0, each once. -/
theorem logInvertsExp : Obligations.LogInvertsExp :=
  ⟨fun _ => gfLog_gfExp, fun _ ha => ⟨gfLog_lt ha, gfExp_gfLog ha⟩⟩

end Sys2Proof.Machine
end

section
/-! The field laws: to multiply by `b ≠ 0` is to double `gfLog b` times, and doubling is XOR-linear (rules R102, R103). -/

namespace Sys2Proof.Machine

@[simp] theorem gfMul_zero_left (b : Byte) : gfMul 0#8 b = 0#8 := if_pos (.inl rfl)

@[simp] theorem gfMul_zero_right (a : Byte) : gfMul a 0#8 = 0#8 := if_pos (.inr rfl)

theorem gfMul_of_ne_zero {a b : Byte} (ha : a ≠ 0) (hb : b ≠ 0) : gfMul a b = gfExp ((gfLog a + gfLog b) % 255) :=
  if_neg (not_or.2 ⟨ha, hb⟩)

theorem gfMul_comm (a b : Byte) : gfMul a b = gfMul b a := by
  simp only [gfMul, Nat.add_comm (gfLog a), or_comm (a := a = 0)]

theorem gfMul_eq_iterate (a : Byte) {b : Byte} (hb : b ≠ 0) : gfMul a b = gfDouble^[gfLog b] a := by
  by_cases ha : a = 0
  · simp [ha]
  · calc gfMul a b = gfDouble^[gfLog b + gfLog a] 1 := by rw [gfMul_of_ne_zero ha hb, gfExp_mod, Nat.add_comm]
      _ = gfDouble^[gfLog b] a := by rw [Function.iterate_add_apply, iterate_gfLog ha]

theorem gfMul_gfExp (a : Byte) {i : Nat} (hi : i < 255) : gfMul a (gfExp i) = gfDouble^[i] a := by
  rw [gfMul_eq_iterate a (gfExp_ne_zero hi), gfLog_gfExp hi]

theorem gfMul_one (a : Byte) : gfMul a 1 = a := gfMul_gfExp a (i := 0) (by decide)

theorem gfMul_two (a : Byte) : gfMul a 2 = gfDouble a := gfMul_gfExp a (i := 1) (by decide)

theorem gfMul_xor (a b c : Byte) : gfMul a (b ^^^ c) = gfMul a b ^^^ gfMul a c := by
  by_cases ha : a = 0
  · simp [ha]
  · rw [gfMul_comm a, gfMul_comm a, gfMul_comm a]
    simp only [gfMul_eq_iterate _ ha, iterate_gfDouble_xor]

/-- Both sides double `b` as often as the logarithms of `a` and `c` say, in either order. -/
theorem gfMul_assoc (a b c : Byte) : gfMul (gfMul a b) c = gfMul a (gfMul b c) := by
  by_cases ha : a = 0
  · simp [ha]
  by_cases hc : c = 0
  · simp [hc]
  rw [gfMul_comm a, gfMul_comm a]
  simp only [gfMul_eq_iterate _ ha, gfMul_eq_iterate _ hc]
  exact (Function.Commute.refl gfDouble).iterate_iterate _ _ b

theorem gfMul_inverse {a : Byte} (ha : a ≠ 0) : gfMul a (gfExp ((255 - gfLog a) % 255)) = 1 := by
  have := gfLog_lt ha
  have hlt : (255 - gfLog a) % 255 < 255 := Nat.mod_lt _ (by decide)
  have hsum : (gfLog a + (255 - gfLog a) % 255) % 255 = 0 := by omega
  rw [gfMul_of_ne_zero ha (gfExp_ne_zero hlt), gfLog_gfExp hlt, hsum]
  rfl

/-- Settles O30, law by law. -/
theorem gfMulIsFieldMultiplication : Obligations.GfMulIsFieldMultiplication :=
  ⟨gfMul_comm, gfMul_assoc, gfMul_xor, fun a => ⟨gfMul_one a, gfMul_zero_right a⟩, fun _ => gfMul_inverse,
    fun a => gfMul_two a ▸ toNat_gfDouble a⟩

end Sys2Proof.Machine
end

section
/-! O31, O32: what the four GF(256) commands answer and write (rules R104 to R107). -/

namespace Sys2Proof.Machine

theorem exec_gfexp (e : Nat) (s : State) : exec (.gfexp e) s = execGfexp e s := rfl

theorem exec_gflog (a : Byte) (s : State) : exec (.gflog a) s = execGflog a s := rfl

/-- Settles O31: each check decides which way the command ends. -/
theorem gfexpAndGflogResults : Obligations.GfexpAndGflogResults := by
  intro s e a
  rw [exec_gfexp, exec_gflog, exec_gflog, ← raise_eq_raised]
  refine ⟨fun he => ?_, fun he => ?_, fun ha => ?_, ?_⟩
  · exact if_neg (Nat.not_lt.2 he)
  · exact if_pos (Nat.lt_of_succ_le he)
  · exact if_neg ha
  · exact if_pos rfl

theorem exec_gfmul (a b : Byte) (s : State) : exec (.gfmul a b) s = toAcc (gfMul a b) s := rfl

theorem exec_gfmac (a b : Byte) (s : State) : exec (.gfmac a b) s = toAcc (s.regs.acc ^^^ gfMul a b) s := rfl

theorem toAcc_eq (v : Byte) (s : State) :
    toAcc v s = .next ({ s with regs := { s.regs with acc := v } }.answer .ok (v.setWidth 32)) := rfl

/-- Settles O32: both commands end in one write to `ACC`. -/
theorem gfmulAndGfmacResults : Obligations.GfmulAndGfmacResults := by
  intro s a b
  rw [exec_gfmul, exec_gfmac]
  exact ⟨toAcc_eq _ s, toAcc_eq _ s⟩

end Sys2Proof.Machine
end

section
/-! The standard generator (rule R125): a pass of the inner loop multiplies the polynomial by `X xor root`, so that its
value at `x` is multiplied by `x xor root`. -/

namespace Sys2Proof.Machine

theorem gfMul_xor_left (a b c : Byte) : gfMul (a ^^^ b) c = gfMul a c ^^^ gfMul b c := by
  simp only [gfMul_comm _ c, gfMul_xor]

theorem gfMul_right_comm (a b c : Byte) : gfMul (gfMul a b) c = gfMul (gfMul a c) b := by
  rw [gfMul_assoc, gfMul_comm b, ← gfMul_assoc]

/-! ## One factor -/

@[simp] theorem length_timesFactor (root : Byte) : ∀ g : List Byte, (timesFactor root g).length = g.length
  | [] | [_] => rfl
  | _ :: b :: rest => congrArg (· + 1) (length_timesFactor root (b :: rest))

/-- One step of Horner's scheme (`evalPoly`). -/
def hornerStep (x v c : Byte) : Byte := gfMul v x ^^^ c

theorem evalPoly_eq_foldl (p : List Byte) (x : Byte) : evalPoly p x = p.foldl (hornerStep x) 0 := rfl

/-- What one coefficient `a` adds: `v` is Horner's value before it, and the product's value lags behind by the term of
`a` with `root`. -/
theorem hornerStep_timesFactor (x root v a : Byte) :
    gfMul (gfMul v (x ^^^ root) ^^^ a) x ^^^ gfMul a root = gfMul (hornerStep x v a) (x ^^^ root) := by
  rw [hornerStep, gfMul_xor_left, gfMul_xor_left, gfMul_right_comm, gfMul_xor a, BitVec.xor_assoc]

/-- Horner's scheme on the product, `v` being its value on `g` before the coefficient `a`. -/
theorem foldl_hornerStep_timesFactor (x root : Byte) (g : List Byte) (v a : Byte) :
    (timesFactor root (a :: g)).foldl (hornerStep x) (gfMul v (x ^^^ root) ^^^ a) =
      gfMul ((a :: g).foldl (hornerStep x) v) (x ^^^ root) := by
  induction g generalizing v a with
  | nil => exact hornerStep_timesFactor x root v a
  | cons b rest ih =>
    rw [timesFactor, List.foldl_cons, List.foldl_cons, ← ih, ← hornerStep_timesFactor, BitVec.xor_assoc]
    rfl

theorem evalPoly_monic_timesFactor (x root : Byte) (p : List Byte) :
    evalPoly (monic (timesFactor root (monic p))) x = gfMul (evalPoly (monic p) x) (x ^^^ root) := by
  rw [evalPoly_eq_foldl, evalPoly_eq_foldl, monic, monic, ← foldl_hornerStep_timesFactor x root p 0 1,
    List.foldl_cons]
  simp [hornerStep]

/-- The product's leading 1 takes the place of a 0 before the polynomial. -/
theorem timesFactor_padded (root : Byte) (p : List Byte) (m : Nat) :
    timesFactor root (List.replicate (m + 1) 0 ++ monic p) =
      List.replicate m 0 ++ monic (timesFactor root (monic p)) := by
  induction m with
  | zero => simp [timesFactor, monic]
  | succ m ih =>
    calc timesFactor root (List.replicate (m + 2) 0 ++ monic p)
        = 0 :: timesFactor root (List.replicate (m + 1) 0 ++ monic p) := by
          simp [List.replicate_succ, timesFactor]
      _ = List.replicate (m + 1) 0 ++ monic (timesFactor root (monic p)) := by
          rw [ih, List.replicate_succ, List.cons_append]

/-! ## All factors -/

@[simp] theorem length_timesFactors (count : Nat) (root : Byte) (g : List Byte) :
    (timesFactors count root g).length = g.length := by
  induction count generalizing root g with
  | zero => rfl
  | succ count ih => rw [timesFactors, ih, length_timesFactor]

/-- The first `m` factors use up the zeros, and the last one drops the leading 1. -/
theorem evalPoly_monic_timesFactors (x : Byte) (m : Nat) (root : Byte) (p : List Byte) :
    evalPoly (monic (timesFactors (m + 1) root (List.replicate m 0 ++ monic p))) x =
      (List.iterate gfDouble root (m + 1)).foldl (fun v r => gfMul v (x ^^^ r)) (evalPoly (monic p) x) := by
  induction m generalizing root p with
  | zero => exact evalPoly_monic_timesFactor x root p
  | succ m ih =>
    rw [timesFactors, timesFactor_padded, ih, evalPoly_monic_timesFactor, gfMul_two]
    rfl

/-- A product of differences is 0 at each of its roots. -/
theorem foldl_factors_eq_zero {x : Byte} {roots : List Byte} (h : x ∈ roots) (v : Byte) :
    roots.foldl (fun v r => gfMul v (x ^^^ r)) v = 0 := by
  induction roots generalizing v with
  | nil => cases h
  | cons r roots ih =>
    obtain rfl | h := List.mem_cons.1 h
    · rw [List.foldl_cons, BitVec.xor_self, gfMul_zero_right]
      exact List.foldl_fixed' (f := fun v r => gfMul v (x ^^^ r)) (fun _ => gfMul_zero_left _) roots
    · exact ih h _

theorem length_standardGenerator {n : Nat} (hn : 1 ≤ n) : (standardGenerator n).length = n := by
  simp [standardGenerator, Nat.sub_add_cancel hn]

/-- Settles O36: the factors are `x xor EXP[0]` to `x xor EXP[n-1]`. -/
theorem standardGeneratorHasItsRoots : Obligations.StandardGeneratorHasItsRoots := by
  intro n hpos hle
  refine ⟨length_standardGenerator hpos, fun i hi => ?_⟩
  obtain ⟨m, rfl⟩ : ∃ m, n = m + 1 := ⟨n - 1, by omega⟩
  have hroot : gfExp i ∈ List.iterate gfDouble 1 (m + 1) :=
    List.mem_iterate.2 ⟨i, hi, gfExp_eq_iterate (by omega)⟩
  exact (evalPoly_monic_timesFactors (gfExp i) m 1 []).trans (foldl_factors_eq_zero hroot _)

end Sys2Proof.Machine
end

section
/-! The remainder register as a polynomial (rules R124, R130): one step multiplies it by `X` and adds the feedback times
`G(X)`, whatever `ECN` is. -/

namespace Sys2Proof.Machine

/-! ## The entries in use -/

theorem entriesBelow_getD {n : Nat} (file : Vector Byte n) (count i : Nat) :
    (entriesBelow file count).getD i 0 = if i < count then entry file i else 0 := by
  split_ifs with h
  · rw [List.getD_eq_getElem?_getD, entriesBelow_getElem? file count i h, Option.getD_some]
  · exact List.getD_eq_default _ _ (by simpa using h)

theorem entriesBelow_congr {n count : Nat} {f g : Vector Byte n} (h : ∀ i < count, entry f i = entry g i) :
    entriesBelow f count = entriesBelow g count :=
  List.map_congr_left fun i hi => h i (List.mem_range.1 hi)

namespace Regs

/-- Coefficient `i` of `R(X)`: `REM[i]` below `ECN` and 0 from there on. -/
def remCoeff (r : Regs) (i : Nat) : Byte := (entriesBelow r.rem r.ecn.toNat).getD i 0

/-- Coefficient `i` of `G(X)` after the leading 1: `GEN[i]` below `ECN` and 0 from there on. -/
def genCoeff (r : Regs) (i : Nat) : Byte := (entriesBelow r.gen r.ecn.toNat).getD i 0

variable (r : Regs) {i : Nat}

theorem remCoeff_eq (i : Nat) : r.remCoeff i = if i < r.ecn.toNat then entry r.rem i else 0 := entriesBelow_getD _ _ _

theorem genCoeff_eq (i : Nat) : r.genCoeff i = if i < r.ecn.toNat then entry r.gen i else 0 := entriesBelow_getD _ _ _

theorem remCoeff_of_lt (h : i < r.ecn.toNat) : r.remCoeff i = entry r.rem i := (r.remCoeff_eq i).trans (if_pos h)

theorem remCoeff_of_le (h : r.ecn.toNat ≤ i) : r.remCoeff i = 0 := (r.remCoeff_eq i).trans (if_neg (Nat.not_lt.2 h))

theorem genCoeff_of_lt (h : i < r.ecn.toNat) : r.genCoeff i = entry r.gen i := (r.genCoeff_eq i).trans (if_pos h)

theorem genCoeff_of_le (h : r.ecn.toNat ≤ i) : r.genCoeff i = 0 := (r.genCoeff_eq i).trans (if_neg (Nat.not_lt.2 h))

theorem remCoeff_eq_zero (h : ∀ i < r.ecn.toNat, entry r.rem i = 0) (i : Nat) : r.remCoeff i = 0 := by
  rcases lt_or_ge i r.ecn.toNat with hi | hi
  · rw [r.remCoeff_of_lt hi, h i hi]
  · exact r.remCoeff_of_le hi

/-- Registers with one `ECN` that agree on the entries in use have the same coefficients. -/
theorem remCoeff_congr {r u : Regs} (he : u.ecn = r.ecn) (h : ∀ i < r.ecn.toNat, entry u.rem i = entry r.rem i) :
    u.remCoeff = r.remCoeff := by
  funext i
  rw [remCoeff, remCoeff, he, entriesBelow_congr h]

theorem genCoeff_congr {r u : Regs} (he : u.ecn = r.ecn) (h : ∀ i < r.ecn.toNat, entry u.gen i = entry r.gen i) :
    u.genCoeff = r.genCoeff := by
  funext i
  rw [genCoeff, genCoeff, he, entriesBelow_congr h]

end Regs

/-! ## One step -/

@[simp] theorem genCoeff_rsStep (r : Regs) (d : Byte) : (rsStep r d).genCoeff = r.genCoeff := by
  funext i
  rw [Regs.genCoeff, rsStep_gen, rsStep_ecn, Regs.genCoeff]

theorem rsFeedback_eq (r : Regs) (d : Byte) (h : 0 < r.ecn.toNat) : rsFeedback r d = d ^^^ r.remCoeff 0 := by
  rw [rsFeedback, r.remCoeff_of_lt h]

/-- The second case is an `ECN` of 31, which its five bits admit: there is no entry 30, and both sides are 0. -/
theorem entry_rsStep_below (r : Regs) (d : Byte) {i : Nat} (h : i < r.ecn.toNat) :
    entry (rsStep r d).rem i = r.remCoeff (i + 1) ^^^ gfMul (r.genCoeff i) (d ^^^ r.remCoeff 0) := by
  rw [r.genCoeff_of_lt h]
  rcases lt_or_ge i Config.ecMax with hi | hi
  · rw [entry_rsStep r d i hi, rsStepEntry, if_pos h, rsFeedback_eq r d (by omega), ← r.remCoeff_eq]
  · have hecn : r.ecn.toNat ≤ i + 1 := (Nat.le_of_lt_succ r.ecn.isLt).trans (Nat.succ_le_succ hi)
    rw [entry_outside _ _ hi, entry_outside _ _ hi, r.remCoeff_of_le hecn]
    simp

/-- Rule R124 as one equation: `R(X)` becomes `R(X)·X` plus the feedback times `G(X)`, without the coefficient that has
been shifted out. -/
theorem remCoeff_rsStep (r : Regs) (d : Byte) (i : Nat) :
    (rsStep r d).remCoeff i = r.remCoeff (i + 1) ^^^ gfMul (r.genCoeff i) (d ^^^ r.remCoeff 0) := by
  rcases lt_or_ge i r.ecn.toNat with hi | hi
  · rw [Regs.remCoeff_of_lt _ (by rwa [rsStep_ecn]), entry_rsStep_below r d hi]
  · rw [Regs.remCoeff_of_le _ (by rwa [rsStep_ecn]), r.remCoeff_of_le (by omega), r.genCoeff_of_le hi]
    simp

/-! ## Any number of steps -/

@[simp] theorem foldl_rsStep_ecn (ds : List Byte) (r : Regs) : (ds.foldl rsStep r).ecn = r.ecn := by
  obtain ⟨_, h⟩ := foldl_rsStep_frame ds r
  rw [h]

@[simp] theorem foldl_rsStep_gen (ds : List Byte) (r : Regs) : (ds.foldl rsStep r).gen = r.gen := by
  obtain ⟨_, h⟩ := foldl_rsStep_frame ds r
  rw [h]

theorem entry_foldl_rsStep_above (ds : List Byte) (r : Regs) (i : Nat) (h : r.ecn.toNat ≤ i) :
    entry (ds.foldl rsStep r).rem i = entry r.rem i := by
  induction ds generalizing r with
  | nil => rfl
  | cons d ds ih => rw [List.foldl_cons, ih _ (by rwa [rsStep_ecn]), entry_rsStep_above r d i h]

theorem entry_foldl_rsStep_below (ds : List Byte) (r : Regs) {i : Nat} (h : i < r.ecn.toNat) :
    entry (ds.foldl rsStep r).rem i = (ds.foldl rsStep r).remCoeff i :=
  (Regs.remCoeff_of_lt _ (by rwa [foldl_rsStep_ecn])).symm

/-- With `ECN` set every byte is taken and answered `OK` (rules R126, R131). -/
theorem feed_eq (ds : List Byte) (s : State) (h : s.regs.ecn ≠ 0) :
    feed ds s = .next { s with
      regs := ds.foldl rsStep s.regs
      responses := s.responses ++ List.replicate ds.length ⟨.ok, 0⟩ } := by
  induction ds generalizing s with
  | nil => simp [feed_nil]
  | cons d ds ih =>
    rw [feed_cons d ds s h, ih _ (by simpa using h)]
    simp [State.setRegs, State.answer, List.replicate_succ]

end Sys2Proof.Machine
end

section
/-! O42, O43, O44: what feeding bytes leaves in `REM`, from the step on coefficients. -/

namespace Sys2Proof.Machine

/-! ## Feeding `REM` itself -/

theorem entriesBelow_succ {n : Nat} (file : Vector Byte n) (count : Nat) :
    entriesBelow file (count + 1) = entriesBelow file count ++ [entry file count] := by
  simp [entriesBelow, List.range_succ]

/-- The feedback is 0 each time, so that the register shifts and nothing is added. -/
theorem remCoeff_foldl_own (r : Regs) {m : Nat} (hm : m ≤ r.ecn.toNat) (i : Nat) :
    ((entriesBelow r.rem m).foldl rsStep r).remCoeff i = r.remCoeff (i + m) := by
  induction m generalizing i with
  | zero => rfl
  | succ m ih =>
    have hshifted := ih (by omega)
    have hfeedback : entry r.rem m ^^^ ((entriesBelow r.rem m).foldl rsStep r).remCoeff 0 = 0 := by
      rw [hshifted, Nat.zero_add, r.remCoeff_of_lt (by omega)]
      exact BitVec.xor_self
    rw [entriesBelow_succ, List.foldl_append, List.foldl_cons, List.foldl_nil, remCoeff_rsStep, hfeedback, hshifted,
      Nat.add_right_comm]
    simp [Nat.add_assoc]

/-- Settles O42: `ECN` shifts empty the register. -/
theorem codewordLeavesNoRemainder : Obligations.CodewordLeavesNoRemainder := by
  intro s he _
  refine ⟨_, feed_eq _ s he, fun pos hpos => ?_, foldl_rsStep_gen _ _, foldl_rsStep_ecn _ _⟩
  rw [entry_foldl_rsStep_below _ _ hpos, remCoeff_foldl_own _ le_rfl]
  exact Regs.remCoeff_of_le _ (by omega)

/-! ## Zero bytes -/

theorem rsStep_zero (r : Regs) (h : ∀ i < Config.ecMax, entry r.rem i = 0) : rsStep r 0 = r := by
  have hcoeff := r.remCoeff_eq_zero fun i _ =>
    (lt_or_ge i Config.ecMax).elim (h i) (entry_outside r.rem i)
  have hrem : (rsStep r 0).rem = r.rem := file_ext fun i hi => by
    rcases lt_or_ge i r.ecn.toNat with hlt | hge
    · rw [entry_rsStep_below r 0 hlt, hcoeff, hcoeff, h i hi]
      simp
    · exact entry_rsStep_above r 0 i hge
  obtain ⟨rem, hframe⟩ := rsStep_frame r 0
  rw [hframe] at hrem ⊢
  rw [show rem = r.rem from hrem]

/-! ## What the result depends on -/

theorem remCoeff_rsStep_congr {r u : Regs} (hg : u.genCoeff = r.genCoeff) (hr : u.remCoeff = r.remCoeff) (d : Byte) :
    (rsStep u d).remCoeff = (rsStep r d).remCoeff := by
  funext i
  rw [remCoeff_rsStep, remCoeff_rsStep, hg, hr]

theorem remCoeff_foldl_congr (ds : List Byte) {r u : Regs} (hg : u.genCoeff = r.genCoeff)
    (hr : u.remCoeff = r.remCoeff) : (ds.foldl rsStep u).remCoeff = (ds.foldl rsStep r).remCoeff := by
  induction ds generalizing r u with
  | nil => exact hr
  | cons d ds ih =>
    have hg' : (rsStep u d).genCoeff = (rsStep r d).genCoeff := by rw [genCoeff_rsStep, genCoeff_rsStep, hg]
    rw [List.foldl_cons, List.foldl_cons]
    exact ih hg' (remCoeff_rsStep_congr hg hr d)

/-- Settles O43: zero bytes leave a zero register as it is, `ECN` is all that `RSBYTE` checks, and the coefficients are
all that a step reads. -/
theorem zeroDataGivesZeroRemainder : Obligations.ZeroDataGivesZeroRemainder := by
  refine ⟨fun s k he hzero => ⟨_, feed_eq _ s he, ?_⟩, fun s data he => ⟨_, feed_eq data s he, rfl⟩, ?_⟩
  · exact List.foldlRecOn (motive := (· = s.regs)) _ _ rfl fun r hr d hd => by
      rw [hr, List.eq_of_mem_replicate hd, rsStep_zero _ hzero]
  · intro s u data he hecn hgen hrem
    refine ⟨_, _, feed_eq data s he, feed_eq data u (hecn ▸ he), fun pos hpos => ?_⟩
    rw [entry_foldl_rsStep_below _ _ hpos, entry_foldl_rsStep_below _ _ (hecn ▸ hpos),
      remCoeff_foldl_congr data (Regs.genCoeff_congr hecn hgen) (Regs.remCoeff_congr hecn hrem)]

/-! ## Linearity -/

theorem remCoeff_rsStep_xor {r p q : Regs} (hp : p.genCoeff = r.genCoeff) (hq : q.genCoeff = r.genCoeff)
    (h : ∀ i, r.remCoeff i = p.remCoeff i ^^^ q.remCoeff i) (d e : Byte) (i : Nat) :
    (rsStep r (d ^^^ e)).remCoeff i = (rsStep p d).remCoeff i ^^^ (rsStep q e).remCoeff i := by
  have hfb : (d ^^^ e) ^^^ r.remCoeff 0 = (d ^^^ p.remCoeff 0) ^^^ (e ^^^ q.remCoeff 0) := by rw [h]; ac_rfl
  rw [remCoeff_rsStep, remCoeff_rsStep, remCoeff_rsStep, hp, hq, hfb, gfMul_xor, h]
  ac_rfl

theorem remCoeff_foldl_xor {ds es : List Byte} (hlen : ds.length = es.length) {r p q : Regs}
    (hp : p.genCoeff = r.genCoeff) (hq : q.genCoeff = r.genCoeff)
    (h : ∀ i, r.remCoeff i = p.remCoeff i ^^^ q.remCoeff i) (i : Nat) :
    ((List.zipWith (· ^^^ ·) ds es).foldl rsStep r).remCoeff i =
      (ds.foldl rsStep p).remCoeff i ^^^ (es.foldl rsStep q).remCoeff i := by
  induction ds generalizing es r p q with
  | nil =>
    rw [List.length_eq_zero_iff.1 hlen.symm]
    exact h i
  | cons d ds ih =>
    obtain ⟨e, es, rfl⟩ := List.exists_cons_of_length_eq_add_one hlen.symm
    have hp' : (rsStep p d).genCoeff = (rsStep r (d ^^^ e)).genCoeff := by rw [genCoeff_rsStep, genCoeff_rsStep, hp]
    have hq' : (rsStep q e).genCoeff = (rsStep r (d ^^^ e)).genCoeff := by rw [genCoeff_rsStep, genCoeff_rsStep, hq]
    rw [List.zipWith_cons_cons, List.foldl_cons, List.foldl_cons, List.foldl_cons]
    exact ih (Nat.succ.inj hlen) hp' hq' (remCoeff_rsStep_xor hp hq h d e)

/-- Settles O44: coefficient by coefficient in the entries in use; the others stay 0. -/
theorem remainderIsLinear : Obligations.RemainderIsLinear := by
  intro s p q hlen he hle hzero
  refine ⟨_, _, _, feed_eq p s he, feed_eq q s he, feed_eq _ s he, fun pos hpos => ?_⟩
  rcases lt_or_ge pos s.regs.ecn.toNat with hi | hi
  · have hcoeff := s.regs.remCoeff_eq_zero fun i hi => hzero i (hi.trans_le hle)
    simp only [entry_foldl_rsStep_below _ _ hi]
    exact remCoeff_foldl_xor hlen rfl rfl (fun i => by simp [hcoeff i]) pos
  · simp [entry_foldl_rsStep_above _ _ _ hi, hzero pos hpos]

end Sys2Proof.Machine
end

section
/-! O41: the feedbacks are the coefficients of the quotient (rule R130). -/

namespace Sys2Proof.Machine

/-! ## Products of polynomials -/

theorem xorSum_cons (v : Byte) (vs : List Byte) : xorSum (v :: vs) = v ^^^ xorSum vs := rfl

theorem xorSum_eq_zero {vs : List Byte} (h : ∀ v ∈ vs, v = 0) : xorSum vs = 0 :=
  List.foldrRecOn (motive := (· = 0)) _ _ rfl fun sum hsum v hv => by rw [h v hv, hsum]; rfl

theorem productCoeff_nil (g : List Byte) (t : Nat) : productCoeff [] g t = 0 :=
  xorSum_eq_zero fun v hv => by
    obtain ⟨i, -, rfl⟩ := List.mem_map.1 hv
    exact gfMul_zero_left _

theorem productCoeff_cons_zero (a : Byte) (p g : List Byte) : productCoeff (a :: p) g 0 = gfMul a (g.getD 0 0) := by
  simp [productCoeff, xorSum]

theorem productCoeff_cons_succ (a : Byte) (p g : List Byte) (t : Nat) :
    productCoeff (a :: p) g (t + 1) = gfMul a (g.getD (t + 1) 0) ^^^ productCoeff p g t := by
  have hrest : ((List.range (t + 1)).map fun i => gfMul ((a :: p).getD (i + 1) 0) (g.getD (t + 1 - (i + 1)) 0)) =
      (List.range (t + 1)).map fun i => gfMul (p.getD i 0) (g.getD (t - i) 0) := by
    simp
  rw [productCoeff, List.range_succ_eq_map, List.map_cons, xorSum_cons, List.map_map, productCoeff, ← hrest]
  rfl

/-! ## The quotient -/

/-- The coefficients of the quotient: the feedback of each step (`rsFeedback_eq`). -/
def feedbacks : Regs → List Byte → List Byte
  | _, [] => []
  | r, d :: ds => (d ^^^ r.remCoeff 0) :: feedbacks (rsStep r d) ds

theorem length_feedbacks (r : Regs) (ds : List Byte) : (feedbacks r ds).length = ds.length := by
  induction ds generalizing r with
  | nil => rfl
  | cons d ds ih => rw [feedbacks, List.length_cons, ih, List.length_cons]

theorem xor_cancel (a b c e : Byte) : a ^^^ (b ^^^ (c ^^^ a) ^^^ e) = b ^^^ c ^^^ e :=
  calc a ^^^ (b ^^^ (c ^^^ a) ^^^ e) = (a ^^^ a) ^^^ (b ^^^ c ^^^ e) := by ac_rfl
    _ = b ^^^ c ^^^ e := by rw [BitVec.xor_self, BitVec.zero_xor]

/-- The division with remainder from any contents of `REM`, which count as data at the high end. -/
theorem productCoeff_feedbacks (r : Regs) (ds : List Byte) (k : Nat) :
    productCoeff (feedbacks r ds) (monic (entriesBelow r.gen r.ecn.toNat)) k =
      ds.getD k 0 ^^^ r.remCoeff k ^^^
        (List.replicate ds.length 0 ++ entriesBelow (ds.foldl rsStep r).rem r.ecn.toNat).getD k 0 := by
  induction ds generalizing r k with
  | nil =>
    rw [feedbacks, productCoeff_nil]
    simp [Regs.remCoeff]
  | cons d ds ih =>
    cases k with
    | zero =>
      rw [feedbacks, productCoeff_cons_zero]
      exact (gfMul_one _).trans BitVec.xor_zero.symm
    | succ t =>
      have hrest := ih (rsStep r d) t
      rw [rsStep_gen, rsStep_ecn, remCoeff_rsStep, gfMul_comm] at hrest
      rw [feedbacks, productCoeff_cons_succ, hrest, List.foldl_cons]
      exact xor_cancel _ _ _ _

theorem getD_append_replicate_zero (ds : List Byte) (n k : Nat) :
    (ds ++ List.replicate n 0).getD k 0 = ds.getD k 0 := by
  rcases lt_or_ge k ds.length with hk | hk
  · exact List.getD_append _ _ _ _ hk
  · rw [List.getD_append_right _ _ _ _ hk, List.getD_eq_getElem?_getD,
      List.getElem?_getD_replicate_default_eq, List.getD_eq_default _ _ hk]

/-- Settles O41: from `REM = 0` nothing counts but the data. -/
theorem remIsPolynomialRemainder : Obligations.RemIsPolynomialRemainder := by
  intro s data he _ hzero
  refine ⟨_, feedbacks s.regs data, feed_eq data s he, length_feedbacks _ _, fun k _ => ?_⟩
  rw [productCoeff_feedbacks, s.regs.remCoeff_eq_zero hzero, getD_append_replicate_zero]
  exact congrArg (· ^^^ _) BitVec.xor_zero

end Sys2Proof.Machine
end

section
/-! O33, O34, O35, O37, O38, O39, O40: what the Reed-Solomon commands check, write and answer (rules R121 to R129). -/

namespace Sys2Proof.Machine

theorem exec_rsinit (n : Nat) (s : State) : exec (.rsinit n) s = execRsinit n s := rfl

theorem exec_genwr (pos : Nat) (val : Byte) (s : State) : exec (.genwr pos val) s = execGenwr pos val s := rfl

theorem exec_genrd (pos : Nat) (s : State) : exec (.genrd pos) s = execGenrd pos s := rfl

theorem exec_genstd (s : State) : exec .genstd s = execGenstd s := rfl

theorem exec_rsbyte (d : Byte) (s : State) : exec (.rsbyte d) s = execRsbyte d s := rfl

theorem exec_rsrd (pos : Nat) (s : State) : exec (.rsrd pos) s = execRsrd pos s := rfl

theorem exec_rsrun (start : CwAddr) (count : Nat) (s : State) :
    exec (.rsrun start count) s = execRsrun start count s := rfl

theorem exec_rsst (dst : CwAddr) (s : State) : exec (.rsst dst) s = execRsst dst s := rfl

/-! ## Setting up: `RSINIT`, `GENWR`, `GENRD`, `GENSTD` -/

/-- Settles O33: 30 fits `ECN`'s five bits. -/
theorem rsinitResult : Obligations.RsinitResult := by
  intro s n
  rw [exec_rsinit, ← raise_eq_raised]
  refine ⟨fun hpos hle => ⟨_, if_neg ?_, ?_, fun i _ => entry_replicate _ i, rfl⟩, fun h => if_pos ?_⟩
  · exact not_or.2 ⟨Nat.not_lt.2 hpos, Nat.not_lt.2 hle⟩
  · exact (BitVec.toNat_ofNat n 5).trans (Nat.mod_eq_of_lt (by omega))
  · exact h.imp Nat.lt_one_iff.2 id

/-- Settles O34: both commands compare the position with 30 and with nothing else. -/
theorem genwrAndGenrdResults : Obligations.GenwrAndGenrdResults := by
  intro s pos val
  rw [exec_genwr, exec_genrd, ← raise_eq_raised]
  exact ⟨fun h => ⟨_, if_neg (Nat.not_le.2 h), fun i _ => entry_setEntry _ pos i val h, rfl⟩,
    fun h => if_neg (Nat.not_le.2 h), fun h => ⟨if_pos h, if_pos h⟩⟩

theorem entry_loadEntries {n : Nat} (file : Vector Byte n) (vs : List Byte) (i : Nat) (h : i < n) :
    entry (loadEntries file vs) i = if i < vs.length then vs.getD i 0 else entry file i := by
  rw [loadEntries, entry_ofFn _ i h]
  split_ifs with hi
  · rw [List.getD_eq_getElem _ _ hi, List.getD_eq_getElem _ _ hi]
  · exact List.getD_eq_default _ _ (Nat.not_lt.1 hi)

theorem execGenstd_of_configured (s : State) (h : s.regs.ecn ≠ 0) :
    exec .genstd s = .next ((s.setRegs
      { s.regs with gen := loadEntries s.regs.gen (standardGenerator s.regs.ecn.toNat) }).answer .ok 0) :=
  if_neg h

/-- Settles O35: the generator has as many coefficients as `ECN` says. -/
theorem genstdResult : Obligations.GenstdResult := by
  intro s
  refine ⟨fun he => ⟨_, execGenstd_of_configured s he, fun i hi => ?_, ?_⟩, fun he => ?_⟩
  · have hpos : 1 ≤ s.regs.ecn.toNat := Nat.one_le_iff_ne_zero.2 fun h => he (BitVec.eq_of_toNat_eq h)
    simp only [State.answer_regs, State.setRegs_regs]
    rw [entry_loadEntries _ _ i hi, length_standardGenerator hpos]
  · simp only [State.answer, State.setRegs]
  · rw [exec_genstd, ← raise_eq_raised]
    exact if_pos he

/-! ## Stepping: `RSBYTE`, `RSRUN` -/

/-- Settles O37: `ECN - 1` is the entry with no entry after it to shift in. -/
theorem rsbyteResult : Obligations.RsbyteResult := by
  intro s d
  refine ⟨fun he => ⟨_, execRsbyte_of_configured d s he, fun pos _ => ?_, ?_⟩, fun he => ?_⟩
  · show entry (rsStep s.regs d).rem pos = _
    rcases lt_or_ge pos s.regs.ecn.toNat with hpos | hpos
    · rw [entry_rsStep_below _ _ hpos, s.regs.genCoeff_of_lt hpos, s.regs.remCoeff_of_lt (i := 0) (by omega)]
      split_ifs with hnext hlast
      · rw [s.regs.remCoeff_of_lt hnext]
      · rw [s.regs.remCoeff_of_le (by omega)]
        exact BitVec.zero_xor
      · omega
    · rw [entry_rsStep_above _ _ _ hpos, if_neg (by omega), if_neg (by omega)]
  · obtain ⟨rem, hframe⟩ := rsStep_frame s.regs d
    rw [hframe]
    rfl
  · rw [exec_rsbyte, ← raise_eq_raised]
    exact if_pos he

/-- Settles O38: both are `rsStep` folded over the bytes of one draw. -/
theorem rsrunEqualsRsbytes : Obligations.RsrunEqualsRsbytes := by
  intro s start count
  rw [exec_rsrun, ← raise_eq_raised, ← raise_eq_raised]
  refine ⟨fun he hrun => ⟨_, _, ?_, feed_eq _ s he, rfl⟩, fun he hrun => ?_, fun he => if_pos he⟩
  · exact (if_neg he).trans (if_neg (Nat.not_lt.2 hrun))
  · exact (if_neg he).trans (if_pos hrun)

/-! ## Reading out: `RSST`, `RSRD` -/

/-- Settles O39: a run of writes, read back cell by cell. -/
theorem rsstResult : Obligations.RsstResult := by
  intro s dst
  rw [exec_rsst, ← raise_eq_raised, ← raise_eq_raised]
  refine ⟨fun he hrun => ⟨_, (if_neg he).trans (if_neg (Nat.not_lt.2 hrun)), fun i hi => ?_, fun a ha => ?_, rfl⟩,
    fun he hrun => (if_neg he).trans (if_pos hrun), fun he => if_pos he⟩
  · refine (Memory.read_writeRun _ _ _ _).trans ?_
    rw [entriesBelow_length, if_pos (by omega), Nat.add_sub_cancel_left, entriesBelow_getElem? _ _ _ hi]
  · refine (Memory.read_writeRun _ _ _ _).trans (if_neg ?_)
    rw [entriesBelow_length]
    omega

/-- Settles O40: a position below `ECN` shows that `ECN` is not 0. -/
theorem rsrdResult : Obligations.RsrdResult := by
  intro s pos
  rw [exec_rsrd, ← raise_eq_raised, ← raise_eq_raised]
  refine ⟨fun h => ?_, fun he hpos => (if_neg he).trans (if_pos hpos), fun he => if_pos he⟩
  have he : s.regs.ecn ≠ 0 := fun he => absurd h (by simp [he])
  exact (if_neg he).trans (if_neg (Nat.not_le.2 h))

end Sys2Proof.Machine
end

section
/-! O45: the loop of rule R150. Each pass XORs two values of equal `bitlen`, so the value gets shorter; XORing in one
that is shorter than the generator does not change which passes are made. -/

namespace Sys2Proof.Machine

/-! ## `bitlen` (rule R8) -/

theorem bitlen_of_ne_zero {v : Nat} (h : v ≠ 0) : bitlen v = Nat.log2 v + 1 := if_neg h

theorem bitlen_pos {v : Nat} (h : v ≠ 0) : 0 < bitlen v := (Nat.succ_pos _).trans_eq (bitlen_of_ne_zero h).symm

theorem bitlen_le_iff {v n : Nat} : bitlen v ≤ n ↔ v < 2 ^ n := by
  by_cases h : v = 0
  · simp [h, bitlen]
  · rw [bitlen_of_ne_zero h, Nat.succ_le_iff, Nat.log2_lt h]

theorem bitlen_eq_size (v : Nat) : bitlen v = Nat.size v :=
  eq_of_forall_ge_iff fun _ => bitlen_le_iff.trans Nat.size_le.symm

theorem bitlen_lt_iff {g : Nat} (hg : g ≠ 0) {v : Nat} : bitlen v < bitlen g ↔ v < 2 ^ Nat.log2 g := by
  rw [bitlen_of_ne_zero hg, Nat.lt_succ_iff, bitlen_le_iff]

theorem bitlen_eq_succ_iff {v n : Nat} : bitlen v = n + 1 ↔ v / 2 ^ n = 1 := by
  have hlt : bitlen v < n + 1 ↔ v < 2 ^ n := Nat.lt_succ_iff.trans bitlen_le_iff
  have hle : bitlen v ≤ n + 1 ↔ v < 2 ^ n * 2 := bitlen_le_iff
  have hpos := Nat.two_pow_pos n
  rw [Nat.div_eq_iff hpos]
  omega

theorem bitlen_shiftLeft {g : Nat} (hg : g ≠ 0) (k : Nat) : bitlen (g <<< k) = bitlen g + k := by
  rw [bitlen_eq_size, bitlen_eq_size, Nat.size_shiftLeft hg]

/-- The highest set bits cancel. -/
theorem bitlen_xor_lt {v w : Nat} (hv : 0 < bitlen v) (h : bitlen w = bitlen v) : bitlen (v ^^^ w) < bitlen v := by
  obtain ⟨n, hn⟩ := Nat.exists_eq_add_one.2 hv
  have hdiv : (v ^^^ w) / 2 ^ n = 0 := by
    rw [Nat.xor_div_two_pow, bitlen_eq_succ_iff.1 hn, bitlen_eq_succ_iff.1 (h.trans hn), Nat.xor_self]
  rw [hn, Nat.lt_succ_iff, bitlen_le_iff]
  exact (Nat.div_eq_zero_iff_lt (Nat.two_pow_pos n)).1 hdiv

/-- The highest set bit stays. -/
theorem bitlen_xor_of_lt {v e : Nat} (h : bitlen e < bitlen v) : bitlen (v ^^^ e) = bitlen v := by
  obtain ⟨n, hn⟩ := Nat.exists_eq_add_one.2 (Nat.zero_lt_of_lt h)
  rw [hn, Nat.lt_succ_iff, bitlen_le_iff] at h
  rw [hn, bitlen_eq_succ_iff, Nat.xor_div_two_pow, Nat.div_eq_of_lt h, Nat.xor_zero, bitlen_eq_succ_iff.1 hn]

/-! ## The passes -/

theorem bchPasses_of_le {g v : Nat} (h : bitlen g ≤ bitlen v) (passes : Nat) :
    bchPasses g (passes + 1) v = bchPasses g passes (v ^^^ (g <<< (bitlen v - bitlen g))) := if_pos h

theorem bchPasses_of_lt {g v : Nat} (h : bitlen v < bitlen g) (passes : Nat) : bchPasses g passes v = v := by
  cases passes with
  | zero => rfl
  | succ passes => exact if_neg (Nat.not_le.2 h)

theorem bitlen_pass_lt {g v : Nat} (hg : g ≠ 0) (h : bitlen g ≤ bitlen v) :
    bitlen (v ^^^ (g <<< (bitlen v - bitlen g))) < bitlen v := by
  refine bitlen_xor_lt ((bitlen_pos hg).trans_le h) ?_
  rw [bitlen_shiftLeft hg, Nat.add_sub_cancel' h]

theorem bitlen_bchPasses_lt {g : Nat} (hg : g ≠ 0) {passes v : Nat} (hv : bitlen v ≤ passes) :
    bitlen (bchPasses g passes v) < bitlen g := by
  induction passes generalizing v with
  | zero => exact (Nat.le_zero.1 hv).trans_lt (bitlen_pos hg)
  | succ passes ih =>
    rcases lt_or_ge (bitlen v) (bitlen g) with h | h
    · rwa [bchPasses_of_lt h]
    · rw [bchPasses_of_le h]
      exact ih (Nat.lt_succ_iff.1 ((bitlen_pass_lt hg h).trans_le hv))

theorem xor_bchPasses (g passes v : Nat) :
    ∃ shifts : List Nat, v ^^^ bchPasses g passes v = shifts.foldr (fun k acc => (g <<< k) ^^^ acc) 0 := by
  induction passes generalizing v with
  | zero => exact ⟨[], Nat.xor_self v⟩
  | succ passes ih =>
    rcases lt_or_ge (bitlen v) (bitlen g) with h | h
    · exact ⟨[], by rw [bchPasses_of_lt h, Nat.xor_self, List.foldr_nil]⟩
    · obtain ⟨shifts, hshifts⟩ := ih (v ^^^ (g <<< (bitlen v - bitlen g)))
      refine ⟨(bitlen v - bitlen g) :: shifts, ?_⟩
      rw [List.foldr_cons, ← hshifts, bchPasses_of_le h, Nat.xor_assoc, Nat.xor_left_comm v, Nat.xor_xor_cancel_left]

theorem bchPasses_xor_of_lt {g e : Nat} (hg : g ≠ 0) (he : e < 2 ^ Nat.log2 g) (passes v : Nat) :
    bchPasses g passes (v ^^^ e) = bchPasses g passes v ^^^ e := by
  induction passes generalizing v with
  | zero => rfl
  | succ passes ih =>
    rcases lt_or_ge (bitlen v) (bitlen g) with h | h
    · have hxor : bitlen (v ^^^ e) < bitlen g := (bitlen_lt_iff hg).2 (Nat.xor_lt_two_pow ((bitlen_lt_iff hg).1 h) he)
      rw [bchPasses_of_lt h, bchPasses_of_lt hxor]
    · have hlen : bitlen (v ^^^ e) = bitlen v := bitlen_xor_of_lt (((bitlen_lt_iff hg).2 he).trans_le h)
      rw [bchPasses_of_le h, bchPasses_of_le (h.trans_eq hlen.symm), hlen, Nat.xor_right_comm, ih]

/-! ## The reduction -/

theorem bchReduce_lt {g : Nat} (hg : g ≠ 0) (v : Nat) : bchReduce v g < 2 ^ Nat.log2 g :=
  (bitlen_lt_iff hg).1 (bitlen_bchPasses_lt hg le_rfl)

theorem bchReduce_of_lt {v g : Nat} (hg : g ≠ 0) (h : v < 2 ^ Nat.log2 g) : bchReduce v g = v :=
  bchPasses_of_lt ((bitlen_lt_iff hg).2 h) _

theorem bchReduce_xor_of_lt {g e : Nat} (hg : g ≠ 0) (he : e < 2 ^ Nat.log2 g) (v : Nat) :
    bchReduce (v ^^^ e) g = bchReduce v g ^^^ e := by
  rcases lt_or_ge (bitlen v) (bitlen g) with h | h
  · have hv : v < 2 ^ Nat.log2 g := (bitlen_lt_iff hg).1 h
    rw [bchReduce_of_lt hg hv, bchReduce_of_lt hg (Nat.xor_lt_two_pow hv he)]
  · have hlen : bitlen (v ^^^ e) = bitlen v := bitlen_xor_of_lt (((bitlen_lt_iff hg).2 he).trans_le h)
    rw [bchReduce, hlen, bchPasses_xor_of_lt hg he, bchReduce]

/-- Settles O45: a pass takes away one shifted generator and at least one bit. -/
theorem bchReduceIsRemainder : Obligations.BchReduceIsRemainder := fun v g hg =>
  ⟨bchReduce_lt hg v, bchReduce_of_lt hg, xor_bchPasses g _ v⟩

end Sys2Proof.Machine
end

section
/-! O48: both information words are data bits above their remainder, so their generator divides them (rules R151,
R152). -/

namespace Sys2Proof.Machine

/-! ## The codeword of a generator -/

/-- The data bits with their remainder below them. -/
def bchCodeword (d g : Nat) : Nat := (d <<< Nat.log2 g) ||| bchReduce (d <<< Nat.log2 g) g

theorem shiftLeft_or_eq_xor {n r : Nat} (d : Nat) (h : r < 2 ^ n) : (d <<< n) ||| r = (d <<< n) ^^^ r := by
  refine Nat.eq_of_testBit_eq fun i => ?_
  rw [Nat.testBit_or, Nat.testBit_xor, Nat.testBit_shiftLeft]
  rcases lt_or_ge i n with hi | hi
  · simp [Nat.not_le.2 hi]
  · rw [Nat.testBit_lt_two_pow (h.trans_le (Nat.pow_le_pow_right Nat.two_pos hi)), Bool.or_false, Bool.xor_false]

theorem bchCodeword_div {g : Nat} (hg : g ≠ 0) (d : Nat) : bchCodeword d g / 2 ^ Nat.log2 g = d := by
  have hrem := bchReduce_lt hg (d <<< Nat.log2 g)
  rw [bchCodeword, Nat.or_div_two_pow, Nat.div_eq_of_lt hrem, Nat.or_zero, Nat.shiftLeft_eq,
    Nat.mul_div_cancel _ (Nat.two_pow_pos _)]

theorem bchReduce_bchCodeword {g : Nat} (hg : g ≠ 0) (d : Nat) : bchReduce (bchCodeword d g) g = 0 := by
  have hrem := bchReduce_lt hg (d <<< Nat.log2 g)
  rw [bchCodeword, shiftLeft_or_eq_xor d hrem, bchReduce_xor_of_lt hg hrem, Nat.xor_self]

/-! ## The two words -/

theorem versionInfo_eq_bchCodeword (ver : Nat) : versionInfo ver = bchCodeword ver versionGenerator := rfl

theorem formatInfo_xor_constant (ec : Nat) {mask : Nat} (hmask : mask ≤ 7) :
    formatInfo ec mask ^^^ formatXor = bchCodeword (8 * ec + mask) formatGenerator := by
  have hseed : (ec <<< 3) ||| mask = 8 * ec + mask := by
    rw [← Nat.shiftLeft_add_eq_or_of_lt (Nat.lt_succ_of_le hmask), Nat.shiftLeft_eq, Nat.mul_comm]
  rw [← hseed]
  exact Nat.xor_xor_cancel_right _ _

/-- No format word is 0, because the constant of the final XOR is not a codeword. -/
theorem formatInfo_ne_zero (ec : Nat) {mask : Nat} (hmask : mask ≤ 7) : formatInfo ec mask ≠ 0 := by
  intro h
  have hconstant : formatXor = bchCodeword (8 * ec + mask) formatGenerator := by
    rw [← formatInfo_xor_constant ec hmask, h, Nat.zero_xor]
  have hzero := bchReduce_bchCodeword (g := formatGenerator) (by decide) (8 * ec + mask)
  rw [← hconstant] at hzero
  exact absurd hzero (by decide +kernel)

/-- Settles O48: the words are codewords of their generators whatever the operands, up to the constant XOR. -/
theorem informationWordsAreCodewords : Obligations.InformationWordsAreCodewords := by
  refine ⟨fun ec _ mask hmask => ?_, fun ver _ _ => ?_⟩
  · rw [show 0x5412 = formatXor from rfl, formatInfo_xor_constant ec hmask]
    exact ⟨bchCodeword_div (by decide) _, bchReduce_bchCodeword (by decide) _, formatInfo_ne_zero ec hmask⟩
  · rw [versionInfo_eq_bchCodeword]
    exact ⟨bchCodeword_div (by decide) ver, bchReduce_bchCodeword (by decide) ver⟩

end Sys2Proof.Machine
end

section
/-! O46, O47: what `FMTENC` and `VERENC` answer and write (rules R153, R154). -/

namespace Sys2Proof.Machine

theorem exec_fmtenc (ec mask : Nat) (s : State) : exec (.fmtenc ec mask) s = execFmtenc ec mask s := rfl

theorem exec_verenc (ver : Nat) (s : State) : exec (.verenc ver) s = execVerenc ver s := rfl

/-- Settles O46: a format word fits `FMT`'s 15 bits, so register and response hold the same word. -/
theorem fmtencResult : Obligations.FmtencResult := by
  intro s ec mask
  rw [exec_fmtenc, ← raise_eq_raised]
  refine ⟨fun hec hmask => ?_, fun h => if_pos h⟩
  have hfits : formatInfo ec mask < 2 ^ 15 := formatInfo_lt ec hec mask hmask
  refine ⟨_, if_neg (not_or.2 ⟨Nat.not_lt.2 hec, Nat.not_lt.2 hmask⟩),
    (BitVec.toNat_ofNat _ _).trans (Nat.mod_eq_of_lt hfits), ?_⟩
  simp only [State.answer, State.setRegs, Csr.setWidth_ofNat hfits]

/-- Settles O47: a version word fits `VINFO`'s 18 bits, so register and response hold the same word. -/
theorem verencResult : Obligations.VerencResult := by
  intro s ver
  rw [exec_verenc, ← raise_eq_raised]
  refine ⟨fun hlo hhi => ?_, fun h => if_pos h⟩
  have hfits : versionInfo ver < 2 ^ 18 := versionInfo_lt ver hhi
  refine ⟨_, if_neg (not_or.2 ⟨Nat.not_lt.2 hlo, Nat.not_lt.2 hhi⟩),
    (BitVec.toNat_ofNat _ _).trans (Nat.mod_eq_of_lt hfits), ?_⟩
  simp only [State.answer, State.setRegs, Csr.setWidth_ofNat hfits]

end Sys2Proof.Machine
end

section
/-! O49, O50: what the four memory commands store and answer (rules R170 to R173). -/

namespace Sys2Proof.Machine

/-! ## What each command does, by its checks -/

theorem exec_cwwr (a : CwAddr) (d : Byte) (s : State) :
    exec (.cwwr a d) s = .next ((s.setCwByte a.toNat d).answer .ok 0) := rfl

theorem exec_cwrd (a : CwAddr) (s : State) :
    exec (.cwrd a) s = .next (s.drawn.answer .ok ((s.cwByte a.toNat).setWidth 32)) := rfl

theorem exec_modwr_of_lt {x y : Nat} (hx : x < 177) (hy : y < 177) (v : Bool) (s : State) :
    exec (.modwr x y v) s = .next ((s.setModBit x y v).answer .ok 0) :=
  if_neg (ne_true_of_eq_false ((outsideMod_eq_false_iff x y).2 ⟨hx, hy⟩))

theorem exec_modwr_of_le {x y : Nat} (h : 177 ≤ x ∨ 177 ≤ y) (v : Bool) (s : State) :
    exec (.modwr x y v) s = .next (s.raised .range) :=
  (if_pos ((outsideMod_iff x y).2 h)).trans (raise_eq_raised _ _)

theorem exec_modrd_of_lt {x y : Nat} (hx : x < 177) (hy : y < 177) (s : State) :
    exec (.modrd x y) s = .next (s.drawn.answer .ok (BitVec.ofNat 32 (s.modBit x y).toNat)) :=
  if_neg (ne_true_of_eq_false ((outsideMod_eq_false_iff x y).2 ⟨hx, hy⟩))

theorem exec_modrd_of_le {x y : Nat} (h : 177 ≤ x ∨ 177 ≤ y) (s : State) :
    exec (.modrd x y) s = .next (s.raised .range) :=
  (if_pos ((outsideMod_iff x y).2 h)).trans (raise_eq_raised _ _)

/-! ## The results -/

/-- The data word of a module's response. -/
theorem ofNat_toNat_bool (b : Bool) : BitVec.ofNat 32 b.toNat = if b then 1 else 0 := by
  cases b <;> rfl

/-- Settles O49: a read after a write, at the address and elsewhere. -/
theorem cwwrAndCwrdResults : Obligations.CwwrAndCwrdResults := by
  intro s a d
  refine ⟨⟨_, exec_cwwr a d s, ?_, fun b hb => ?_, rfl⟩, exec_cwrd a s⟩
  · exact Memory.read_write_self s.cw a.toNat d
  · exact Memory.read_write_other s.cw d hb

/-- Settles O50: two modules of the memory with one cell number are the same module (`Memory.cellNumber_inj`). -/
theorem modwrAndModrdResults : Obligations.ModwrAndModrdResults := by
  intro s x y v
  refine ⟨fun hx hy => ⟨_, exec_modwr_of_lt hx hy v s, ?_, fun x' hx' y' _ hother => ?_, rfl⟩, fun hx hy => ?_,
    fun h => ⟨exec_modwr_of_le h v s, exec_modrd_of_le h s⟩⟩
  · exact Memory.read_write_self s.mod (Memory.cellNumber x y) v
  · exact Memory.read_write_other s.mod v fun hcell => hother (Memory.cellNumber_inj hx' hx hcell)
  · rw [exec_modrd_of_lt hx hy, ofNat_toNat_bool]
    rfl

end Sys2Proof.Machine
end

section
/-! O51: the reserved predicate, area by area, over the integers (rules R180 to R182). -/

namespace Sys2Proof.Machine

/-- A coordinate list in use satisfies a test somewhere exactly when some `ALN[i]` with `i < ALNCNT` does (rule R25). -/
theorem any_alnCoords (r : Regs) (test : Nat → Bool) :
    r.alnCoords.any test = true ↔ ∃ i < r.alncnt.toNat, test (entry r.aln i).toNat = true := by
  simp [Regs.alnCoords, entriesBelow]

theorem withinTwo_iff (a b : Nat) : withinTwo a b = true ↔ |(a : Int) - b| ≤ 2 := by
  simp only [withinTwo, Bool.and_eq_true, decide_eq_true_eq, abs_le]
  omega

/-- `AlnKept` (rule R181), on a side that its subtractions do not fall below. -/
theorem alnKept_iff {side : Nat} (hside : 9 ≤ side) (cx cy : Nat) : alnKept side cx cy = true ↔
    ¬ (((cx : Int) ≤ 8 ∧ (cy : Int) ≤ 8) ∨ ((side : Int) - 9 ≤ cx ∧ (cx : Int) ≤ side + 1 ∧ (cy : Int) ≤ 8) ∨
      ((cx : Int) ≤ 8 ∧ (side : Int) - 9 ≤ cy ∧ (cy : Int) ≤ side + 1)) := by
  simp only [alnKept, Bool.not_eq_true', Bool.or_eq_false_iff, Bool.and_eq_false_iff, decide_eq_false_iff_not]
  omega

theorem inFinderBuffer_iff {side : Nat} (hside : 8 ≤ side) (x y : Nat) : inFinderBuffer side x y = true ↔
    ((x : Int) ≤ 8 ∧ (y : Int) ≤ 8) ∨ ((x : Int) ≥ side - 8 ∧ (y : Int) ≤ 8) ∨ ((x : Int) ≤ 8 ∧ (y : Int) ≥ side - 8) := by
  simp only [inFinderBuffer, Bool.or_eq_true, Bool.and_eq_true, decide_eq_true_eq]
  omega

theorem onTimingLine_iff (x y : Nat) : onTimingLine x y = true ↔ (x : Int) = 6 ∨ (y : Int) = 6 := by
  simp only [onTimingLine, Bool.or_eq_true, decide_eq_true_eq]
  omega

theorem inVersionBlock_iff {side : Nat} (hside : 11 ≤ side) (ver x y : Nat) : inVersionBlock ver side x y = true ↔
    (ver ≥ 7 ∧ (x : Int) ≤ 5 ∧ (side : Int) - 11 ≤ y ∧ (y : Int) ≤ side - 9) ∨
      (ver ≥ 7 ∧ (y : Int) ≤ 5 ∧ (side : Int) - 11 ≤ x ∧ (x : Int) ≤ side - 9) := by
  simp only [inVersionBlock, Bool.or_eq_true, Bool.and_eq_true, decide_eq_true_eq]
  omega

/-- Every ordered pair of coordinates in use is a candidate centre (rules R25, R181). -/
theorem inAlignment_iff (r : Regs) (side x y : Nat) : inAlignment side r.alnCoords x y = true ↔
    ∃ i j, i < r.alncnt.toNat ∧ j < r.alncnt.toNat ∧ alnKept side (entry r.aln i).toNat (entry r.aln j).toNat = true ∧
      |(x : Int) - (entry r.aln i).toNat| ≤ 2 ∧ |(y : Int) - (entry r.aln j).toNat| ≤ 2 := by
  simp only [inAlignment, any_alnCoords, Bool.and_eq_true, withinTwo_iff, and_assoc, exists_and_left]

/-- Settles O51: the areas one by one; the side is at least 17, so that no subtraction of theirs is cut off at 0. -/
theorem reservedIsTheSpecsCondition : Obligations.ReservedIsTheSpecsCondition := by
  intro r x y
  have hside : 17 ≤ r.size := Nat.le_add_right 17 _
  have hS : (17 : Int) + 4 * r.ver.toNat = r.size := by simp [Regs.size]
  simp only [hS, reserved, Bool.or_eq_true, or_assoc, inFinderBuffer_iff (show 8 ≤ r.size by omega), onTimingLine_iff,
    inVersionBlock_iff (show 11 ≤ r.size by omega), inAlignment_iff, alnKept_iff (show 9 ≤ r.size by omega)]

end Sys2Proof.Machine
end

section
/-! O52, O55: the mask predicates, and what the three placement queries answer (rules R183, R185 to R187). -/

namespace Sys2Proof.Machine

/-- Settles O52: each predicate is the test that its condition holds. -/
theorem maskPredicates : Obligations.MaskPredicates := by
  intro x y
  refine ⟨?_, ?_, ?_, ?_, ?_, ?_, ?_, ?_⟩ <;> exact beq_iff_eq

theorem exec_rsvq_of_lt {s : State} {x y : Nat} (hx : x < s.regs.size) (hy : y < s.regs.size) :
    exec (.rsvq x y) s = .next (s.answer .ok (BitVec.ofNat 32 (reserved s.regs x y).toNat)) :=
  if_neg (not_or.2 ⟨Nat.not_le.2 hx, Nat.not_le.2 hy⟩)

theorem exec_rsvq_of_le {s : State} {x y : Nat} (h : s.regs.size ≤ x ∨ s.regs.size ≤ y) :
    exec (.rsvq x y) s = .next (s.raised .range) :=
  (if_pos h).trans (raise_eq_raised _ _)

theorem exec_maskq (x y : Nat) (s : State) :
    exec (.maskq x y) s = .next (s.answer .ok (BitVec.ofNat 32 (s.regs.maskAt x y).toNat)) := rfl

theorem exec_rsvcnt (s : State) :
    exec .rsvcnt s = .next (s.answer .ok (BitVec.ofNat 32 (freeCount s.regs))) := rfl

/-- Settles O55: `RSVCNT` answers the size of the set it counts (`freeCount_eq_card`), the others one bit. -/
theorem placementQueryResults : Obligations.PlacementQueryResults := by
  intro s x y
  refine ⟨fun hx hy => ?_, exec_rsvq_of_le, ?_, ?_⟩
  · rw [exec_rsvq_of_lt hx hy, ofNat_toNat_bool]
  · rw [exec_maskq, ofNat_toNat_bool]
    rfl
  · rw [exec_rsvcnt, freeCount_eq_card]
    rfl

end Sys2Proof.Machine
end

section
/-! O53, O54, O58: the traversal, pair by pair and place by place, and the data modules on it (rules R184, R190 (b)). -/

namespace Sys2Proof.Machine

/-! ## Column pairs -/

/-- The right column of the pair that has `left - 1` pairs to its left: the pairs left of column 6 stand one column
further to the left. -/
def pairRight (left : Nat) : Nat := if 3 < left then 2 * left else 2 * left - 1

/-- The column the loop is at with `left` pairs to walk. It comes to column 6 and then walks the pair from column 5. -/
def pairStart (left : Nat) : Nat := if 2 < left then 2 * left else 2 * left - 1

/-- One pass of the loop. -/
theorem zigZagFrom_pairStart (side passes left : Nat) (up : Bool) :
    zigZagFrom side (passes + 1) (pairStart (left + 1)) up =
      pairCoords side (pairRight (left + 1)) up ++ zigZagFrom side passes (pairStart left) (!up) := by
  have hstart : pairStart (left + 1) ≥ 1 := by unfold pairStart; split_ifs <;> omega
  have hright : (if pairStart (left + 1) = 6 then 5 else pairStart (left + 1)) = pairRight (left + 1) := by
    unfold pairStart pairRight; split_ifs <;> omega
  have hnext : pairRight (left + 1) - 2 = pairStart left := by
    unfold pairStart pairRight; split_ifs <;> omega
  simp only [zigZagFrom, if_pos hstart, hright, hnext]

/-! ## Places -/

/-- A list of pairs, laid out flat. -/
theorem getElem?_flatMap_two {α β : Type} (l : List α) (f g : α → β) (i c : Nat) (hc : c < 2) :
    (l.flatMap fun a => [f a, g a])[2 * i + c]? = l[i]?.map fun a => if c = 0 then f a else g a := by
  induction l generalizing i with
  | nil => simp
  | cons a l ih =>
    cases i with
    | zero => interval_cases c <;> simp
    | succ i => simpa [show 2 * (i + 1) + c = 2 * i + c + 1 + 1 by omega] using ih i

theorem length_pairCoords (side right : Nat) (up : Bool) : (pairCoords side right up).length = 2 * side := by
  simp [pairCoords, List.length_flatMap, Nat.mul_comm]

theorem getElem?_pairCoords {side v c : Nat} (hv : v < side) (hc : c < 2) (right : Nat) (up : Bool) :
    (pairCoords side right up)[2 * v + c]? = some (right - c, if up then side - 1 - v else v) := by
  simp only [pairCoords, getElem?_flatMap_two _ _ _ _ _ hc, List.getElem?_range hv, Option.map_some]
  interval_cases c <;> rfl

theorem length_zigZagFrom (side : Nat) {passes left : Nat} (h : left ≤ passes) (up : Bool) :
    (zigZagFrom side passes (pairStart left) up).length = left * (2 * side) := by
  induction left generalizing passes up with
  | zero => cases passes <;> simp [zigZagFrom, pairStart]
  | succ left ih =>
    obtain ⟨passes, rfl⟩ := Nat.exists_eq_add_of_le' (Nat.one_le_of_lt h)
    rw [zigZagFrom_pairStart, List.length_append, length_pairCoords, ih (Nat.le_of_succ_le_succ h),
      Nat.add_comm, Nat.add_one_mul left]

/-- Pair `p` of the `left` pairs to walk: the direction has turned `p` times. -/
theorem getElem?_zigZagFrom {side passes left p v c : Nat} (h : left ≤ passes) (hp : p < left) (hv : v < side)
    (hc : c < 2) (up : Bool) :
    (zigZagFrom side passes (pairStart left) up)[2 * (p * side + v) + c]? =
      some (pairRight (left - p) - c, if up = decide (p % 2 = 0) then side - 1 - v else v) := by
  induction left generalizing passes up p with
  | zero => omega
  | succ left ih =>
    obtain ⟨passes, rfl⟩ := Nat.exists_eq_add_of_le' (Nat.one_le_of_lt h)
    rw [zigZagFrom_pairStart]
    cases p with
    | zero =>
      rw [List.getElem?_append_left (by rw [length_pairCoords]; omega), Nat.zero_mul, Nat.zero_add,
        getElem?_pairCoords hv hc]
      simp
    | succ p =>
      have hplace : 2 * ((p + 1) * side + v) + c = 2 * side + (2 * (p * side + v) + c) := by ring
      have hturn : ((!up) = decide (p % 2 = 0)) ↔ up = decide ((p + 1) % 2 = 0) := by
        rcases Nat.mod_two_eq_zero_or_one p with h2 | h2 <;> cases up <;> simp [Nat.add_mod, h2]
      rw [hplace, ← length_pairCoords side (pairRight (left + 1)) up, List.getElem?_append_right (Nat.le_add_right _ _),
        Nat.add_sub_cancel_left, ih (Nat.le_of_succ_le_succ h) (Nat.lt_of_succ_lt_succ hp), Nat.add_sub_add_right]
      simp only [hturn]

/-- The traversal of a symbol starts with `8 + 2·ver` pairs to walk. -/
theorem zigZag_eq_zigZagFrom {ver : Nat} (hver : 1 ≤ ver) :
    zigZag (17 + 4 * ver) = zigZagFrom (17 + 4 * ver) (17 + 4 * ver) (pairStart (8 + 2 * ver)) true := by
  rw [zigZag, pairStart, if_pos (by omega)]
  congr 1
  omega

theorem length_zigZag {ver : Nat} (hver : 1 ≤ ver) :
    (zigZag (17 + 4 * ver)).length = (17 + 4 * ver) * (16 + 4 * ver) := by
  rw [zigZag_eq_zigZagFrom hver, length_zigZagFrom _ (by omega)]
  ring

/-- Settles O53: place by place along the loop, counting the pairs that are left to walk. -/
theorem zigZagPlaceByPlace : Obligations.ZigZagPlaceByPlace := by
  intro ver hver _
  refine ⟨length_zigZag hver, fun p v c hp hv hc => ?_⟩
  have hcolumn : pairRight (8 + 2 * ver - p) =
      if 6 < 16 + 4 * ver - 2 * p then 16 + 4 * ver - 2 * p else 15 + 4 * ver - 2 * p := by
    unfold pairRight; split_ifs <;> omega
  have hlast : 17 + 4 * ver - 1 - v = 16 + 4 * ver - v := by omega
  rw [zigZag_eq_zigZagFrom hver, getElem?_zigZagFrom (by omega) hp hv hc, hcolumn, hlast]
  simp

/-! ## Each module once -/

/-- The traversal is as long as the set of its modules is large. -/
theorem nodup_zigZag {ver : Nat} (hver : 1 ≤ ver) : (zigZag (17 + 4 * ver)).Nodup := by
  have hset : (zigZag (17 + 4 * ver)).toFinset =
      (Finset.range (17 + 4 * ver)).erase 6 ×ˢ Finset.range (17 + 4 * ver) := by
    ext ⟨x, y⟩
    simp only [List.mem_toFinset, mem_zigZag ver x y hver, Finset.mem_product, Finset.mem_erase, Finset.mem_range]
    tauto
  refine Multiset.toFinset_card_eq_card_iff_nodup.1 (show (zigZag _).toFinset.card = (zigZag _).length from ?_)
  rw [hset, Finset.card_product, Finset.card_erase_of_mem (Finset.mem_range.2 (by omega)), Finset.card_range,
    length_zigZag hver, Nat.mul_comm]
  congr 1
  omega

/-- Settles O54: no module is met twice, because the places are as many as the modules outside column 6. -/
theorem zigZagVisitsEachModuleOnce : Obligations.ZigZagVisitsEachModuleOnce := fun ver hver _ =>
  ⟨nodup_zigZag hver, fun x y => mem_zigZag ver x y hver⟩

theorem nodup_dataModules {r : Regs} (hver : 1 ≤ r.ver.toNat) : (dataModules r).Nodup := (nodup_zigZag hver).filter _

theorem length_dataModules {r : Regs} (hver : 1 ≤ r.ver.toNat) : (dataModules r).length = freeCount r := by
  rw [← List.toFinset_card_of_nodup (nodup_dataModules hver), freeCount_eq_card]
  congr 1
  ext ⟨x, y⟩
  simp only [List.mem_toFinset, mem_dataModules r hver, Finset.mem_filter, Finset.mem_product, Finset.mem_range, and_assoc]

/-- Settles O58: the data modules are the unreserved part of a traversal that meets each module once. -/
theorem dataModulesAreTheUnreserved : Obligations.DataModulesAreTheUnreserved := fun r hver _ =>
  ⟨nodup_dataModules hver, length_dataModules hver, mem_dataModules r hver⟩

end Sys2Proof.Machine
end

section
/-! O56, O57, O59, O60: what `PLACE` writes, module by module, and when it refuses (rules R188 to R191). -/

namespace Sys2Proof.Machine

/-! ## The checks -/

/-- The checks of `PLACE` are the two conditions of rules R188 and R189. -/
theorem placeMismatch_eq_false_iff (r : Regs) : placeMismatch r = false ↔ PlaceAccepted r := by
  unfold placeMismatch PlaceAccepted
  rw [← Regs.nbits, ← Regs.remok]
  cases r.remok <;> simp <;> omega

theorem exec_place_of_refused {s : State} (h : ¬ PlaceAccepted s.regs) :
    exec .place s = .next (s.raised .placeMismatch) :=
  (if_pos (eq_true_of_ne_false (mt (placeMismatch_eq_false_iff s.regs).1 h))).trans (raise_eq_raised _ _)

/-- Settles O56: the two cases are those in which `PLACE` is not accepted. -/
theorem placeMismatchIsRefused : Obligations.PlaceMismatchIsRefused := by
  refine fun s h => exec_place_of_refused ?_
  rintro (hfull | ⟨hremok, hle, hrest⟩)
  · omega
  · obtain hless | ⟨hmore, hoff | hfar⟩ := h
    · omega
    · rw [hoff] at hremok; cases hremok
    · omega

/-- `MOD` after an accepted `PLACE`. -/
def State.placedMod (s : State) : List (Nat × Bool) := (placeLoop s (zigZag s.regs.size) 0 s.mod).2

/-- An accepted `PLACE` writes `MOD` and `BITCNT` and answers `8·NCW`. -/
theorem exec_place_of_accepted {s : State} (hver : 1 ≤ s.regs.ver.toNat) (h : PlaceAccepted s.regs) :
    exec .place s = .next { s with
      regs := { s.regs with bitcnt := BitVec.ofNat 16 s.regs.nbits }
      mod := s.placedMod, draws := s.draws + 1
      responses := s.responses ++ [⟨.ok, BitVec.ofNat 32 s.regs.nbits⟩] } := by
  have hcheck := (placeMismatch_eq_false_iff s.regs).2 h
  show execPlace s = _
  simp only [execPlace, hcheck, Bool.false_eq_true, if_false, place_consumes_stream s hver hcheck]
  rfl

theorem mod_of_place {s t : State} (hver : 1 ≤ s.regs.ver.toNat) (h : PlaceAccepted s.regs)
    (ht : exec .place s = .next t) : t.mod = s.placedMod := by
  rw [exec_place_of_accepted hver h, Host.Outcome.next.injEq] at ht
  rw [← ht]

/-! ## The loop -/

/-- What the loop writes to a data module when `k` stream bits have been consumed: the next bit, or 0 when the stream is
exhausted, XORed with the mask. -/
def State.placedBit (s : State) (k x y : Nat) : Bool :=
  (if k < s.regs.nbits then s.streamBit k else false) ^^ s.regs.maskAt x y

theorem placeLoop_of_reserved {s : State} {x y : Nat} (h : reserved s.regs x y = true) (rest : List (Nat × Nat))
    (k : Nat) (mem : List (Nat × Bool)) : placeLoop s ((x, y) :: rest) k mem = placeLoop s rest k mem := by
  rw [placeLoop, if_pos h]

theorem placeLoop_of_data {s : State} {x y : Nat} (h : reserved s.regs x y = false) (rest : List (Nat × Nat))
    (k : Nat) (mem : List (Nat × Bool)) : placeLoop s ((x, y) :: rest) k mem =
      placeLoop s rest (if k < s.regs.nbits then k + 1 else k)
        (Memory.write mem (Memory.cellNumber x y) (s.placedBit k x y)) := by
  rw [placeLoop, if_neg (ne_true_of_eq_false h), State.placedBit]
  split_ifs <;> rfl

/-- The loop writes no cell but those of the data modules it meets. -/
theorem read_placeLoop_other (s : State) (l : List (Nat × Nat)) (k : Nat) (mem : List (Nat × Bool)) (cell : Nat)
    (h : ∀ x y, (x, y) ∈ l → reserved s.regs x y = false → Memory.cellNumber x y ≠ cell) :
    Memory.read (placeLoop s l k mem).2 cell = Memory.read mem cell := by
  induction l generalizing k mem with
  | nil => rfl
  | cons p rest ih =>
    obtain ⟨x, y⟩ := p
    have hrest := fun x' y' hmem => h x' y' (List.mem_cons_of_mem _ hmem)
    cases hres : reserved s.regs x y with
    | true => rw [placeLoop_of_reserved hres, ih _ _ hrest]
    | false =>
      rw [placeLoop_of_data hres, ih _ _ hrest, Memory.read_write_other]
      exact (h x y List.mem_cons_self hres).symm

/-- The `j`-th data module the loop meets gets the `j`-th of the bits that are left, and keeps it. -/
theorem read_placeLoop_data (s : State) (l : List (Nat × Nat)) (k : Nat) (mem : List (Nat × Bool))
    (hnodup : l.Nodup) (hl : ∀ p ∈ l, p.1 < Config.mMax) {j x y : Nat}
    (hj : (l.filter fun p => !reserved s.regs p.1 p.2)[j]? = some (x, y)) :
    Memory.read (placeLoop s l k mem).2 (Memory.cellNumber x y) = some (s.placedBit (k + j) x y) := by
  induction l generalizing k mem j with
  | nil => simp at hj
  | cons p rest ih =>
    obtain ⟨x', y'⟩ := p
    rw [List.nodup_cons] at hnodup
    rw [List.forall_mem_cons] at hl
    obtain ⟨hnew, hnodup⟩ := hnodup
    obtain ⟨hx', hl⟩ := hl
    cases hres : reserved s.regs x' y' with
    | true =>
      rw [List.filter_cons_of_neg (by simp [hres])] at hj
      rw [placeLoop_of_reserved hres, ih k mem hnodup hl hj]
    | false =>
      rw [List.filter_cons_of_pos (by simp [hres])] at hj
      rw [placeLoop_of_data hres]
      cases j with
      | zero =>
        obtain ⟨rfl, rfl⟩ : x' = x ∧ y' = y := by simpa using hj
        rw [read_placeLoop_other, Memory.read_write_self, Nat.add_zero]
        rintro u v hmem - hcell
        obtain ⟨rfl, rfl⟩ := Memory.cellNumber_inj (hl _ hmem) hx' hcell
        exact hnew hmem
      | succ j =>
        rw [ih _ _ hnodup hl (by simpa using hj)]
        unfold State.placedBit
        by_cases hk : k < s.regs.nbits
        · rw [if_pos hk, Nat.add_right_comm, Nat.add_assoc]
        · rw [if_neg hk, if_neg (show ¬ k + j < _ by omega), if_neg (show ¬ k + (j + 1) < _ by omega)]

/-! ## The module memory after `PLACE` -/

theorem read_placedMod_other {s : State} (hver : 1 ≤ s.regs.ver.toNat) (hle : s.regs.ver.toNat ≤ 40) {x y : Nat}
    (hx : x < Config.mMax) (h : (x, y) ∉ dataModules s.regs) :
    Memory.read s.placedMod (Memory.cellNumber x y) = Memory.read s.mod (Memory.cellNumber x y) := by
  refine read_placeLoop_other s _ 0 s.mod _ fun x' y' hmem hres hcell => h ?_
  have hx' : x' < Config.mMax := (zigZag_within_mod _ hver hle _ hmem).1
  obtain ⟨rfl, rfl⟩ := Memory.cellNumber_inj hx' hx hcell
  exact List.mem_filter.2 ⟨hmem, by simp [hres]⟩

theorem read_placedMod_data {s : State} (hver : 1 ≤ s.regs.ver.toNat) (hle : s.regs.ver.toNat ≤ 40) {j x y : Nat}
    (hj : (dataModules s.regs)[j]? = some (x, y)) :
    Memory.read s.placedMod (Memory.cellNumber x y) = some (s.placedBit j x y) := by
  have hread := read_placeLoop_data s (zigZag s.regs.size) 0 s.mod (nodup_zigZag hver)
    (fun p hp => (zigZag_within_mod _ hver hle p hp).1) hj
  rwa [Nat.zero_add] at hread

/-- Settles O57: the loop's cells, read once the loop has ended. -/
theorem placeWritesMaskedStream : Obligations.PlaceWritesMaskedStream := by
  intro s hver hle haccepted
  refine ⟨_, exec_place_of_accepted hver haccepted, fun j x y hj => ?_, fun x hx y _ h => ?_, rfl⟩
  · exact read_placedMod_data hver hle hj
  · exact read_placedMod_other hver hle hx h

/-- `s` with `m` in `MASK`. -/
def State.withMask (s : State) (m : BitVec 3) : State := { s with regs := { s.regs with mask := m } }

/-- Both masks are XORed with the same stream bit. -/
theorem placedBit_ne_withMask_iff (s : State) (m : BitVec 3) (j x y : Nat) :
    s.placedBit j x y ≠ (s.withMask m).placedBit j x y ↔ maskPred s.regs.mask.toNat x y ≠ maskPred m.toNat x y :=
  not_congr Bool.xor_right_inj

/-- Settles O59: both placements meet the same data modules, and both leave every other cell as it was. -/
theorem masksDifferWherePredicatesDo : Obligations.MasksDifferWherePredicatesDo := by
  intro s t u m hver hle haccepted ht hu x hx y _
  rw [mod_of_place hver haccepted ht, mod_of_place (s := s.withMask m) hver haccepted hu]
  by_cases hmem : (x, y) ∈ dataModules s.regs
  · obtain ⟨j, hj⟩ := List.getElem?_of_mem hmem
    rw [read_placedMod_data hver hle hj, read_placedMod_data (s := s.withMask m) hver hle hj, Option.some_inj.ne,
      placedBit_ne_withMask_iff, and_iff_right hmem]
  · rw [read_placedMod_other hver hle hx hmem, read_placedMod_other (s := s.withMask m) hver hle hx hmem]
    exact iff_of_false (fun h => h rfl) fun h => hmem h.1

/-! ## Drawing and placing (rule R191) -/

/-- Writes to two cells may be done in either order. -/
theorem Memory.write_comm {α : Type} (m : List (Nat × α)) {a b : Nat} (u v : α) (h : a ≠ b) :
    write (write m a u) b v = write (write m b v) a u := by
  wlog hab : a < b generalizing a b u v
  · exact (this v u h.symm (by omega)).symm
  have hba : ¬ b < a := Nat.lt_asymm hab
  induction m with
  | nil => simp [write, hab, hba, h.symm]
  | cons cell rest ih =>
    obtain ⟨c, w⟩ := cell
    rcases Nat.lt_trichotomy a c with hac | rfl | hca
    · rcases Nat.lt_trichotomy b c with hbc | rfl | hcb
      · simp [write, hac, hbc, hab, hba, h.symm]
      · simp [write, hac, hba, h.symm]
      · simp [write, hac, hba, h.symm, Nat.lt_asymm hcb, hcb.ne']
    · simp [write, hba, h.symm]
    · have hcb : c < b := hca.trans hab
      simp [write, Nat.lt_asymm hca, Nat.lt_asymm hcb, hca.ne', hcb.ne', ih]

/-- The loop reads the registers, the codewords and the draw number. -/
theorem placeLoop_congr {s t : State} (hregs : t.regs = s.regs) (hcw : t.cw = s.cw) (hdraws : t.draws = s.draws)
    (l : List (Nat × Nat)) (k : Nat) (mem : List (Nat × Bool)) : placeLoop t l k mem = placeLoop s l k mem := by
  induction l generalizing k mem with
  | nil => rfl
  | cons p rest ih => simp only [placeLoop, ih, hregs, State.streamBit, State.cwByte, hcw, hdraws]

/-- A cell that the loop does not write may be written before it or after it. -/
theorem placeLoop_write (s : State) (l : List (Nat × Nat)) (k : Nat) (mem : List (Nat × Bool)) (cell : Nat) (v : Bool)
    (h : ∀ x y, (x, y) ∈ l → reserved s.regs x y = false → Memory.cellNumber x y ≠ cell) :
    (placeLoop s l k (Memory.write mem cell v)).2 = Memory.write (placeLoop s l k mem).2 cell v := by
  induction l generalizing k mem with
  | nil => rfl
  | cons p rest ih =>
    obtain ⟨x, y⟩ := p
    have hrest := fun x' y' hmem => h x' y' (List.mem_cons_of_mem _ hmem)
    cases hres : reserved s.regs x y with
    | true => rw [placeLoop_of_reserved hres, placeLoop_of_reserved hres, ih _ _ hrest]
    | false =>
      rw [placeLoop_of_data hres, placeLoop_of_data hres, ← ih _ _ hrest, Memory.write_comm]
      exact (h x y List.mem_cons_self hres).symm

/-- `PLACE` keeps a reserved module that has been drawn. -/
theorem placedMod_setModBit {s : State} (hver : 1 ≤ s.regs.ver.toNat) (hle : s.regs.ver.toNat ≤ 40) {x y : Nat}
    (hx : x < Config.mMax) (hres : reserved s.regs x y = true) (v : Bool) (st : Status) (d : Word) :
    ((s.setModBit x y v).answer st d).placedMod = Memory.write s.placedMod (Memory.cellNumber x y) v := by
  show (placeLoop _ (zigZag s.regs.size) 0 (Memory.write s.mod _ v)).2 = _
  rw [placeLoop_congr (s := s) (t := (s.setModBit x y v).answer st d) rfl rfl rfl]
  refine placeLoop_write s _ 0 s.mod _ v fun x' y' hmem hfree hcell => ?_
  have hx' : x' < Config.mMax := (zigZag_within_mod _ hver hle _ hmem).1
  obtain ⟨rfl, rfl⟩ := Memory.cellNumber_inj hx' hx hcell
  exact absurd (hres.symm.trans hfree) (by decide)

/-- Settles O60: `PLACE` writes no reserved module and reads no module at all. -/
theorem drawingAndPlacingCommute : Obligations.DrawingAndPlacingCommute := by
  intro s a b c d x y v hinv hx hy hres haccepted ha hb hc hd
  have hver := hinv.regs.ver_pos
  have hle := hinv.regs.ver_le
  have hsize : s.regs.size ≤ 177 := by unfold Regs.size; omega
  have hx' := hx.trans_le hsize
  have hy' := hy.trans_le hsize
  rw [exec_modwr_of_lt hx' hy', Host.Outcome.next.injEq] at ha hd
  subst ha hd
  rw [exec_place_of_accepted hver haccepted, Host.Outcome.next.injEq] at hc
  rw [exec_place_of_accepted (s := (s.setModBit x y v).answer .ok 0) hver haccepted, Host.Outcome.next.injEq] at hb
  subst hb hc
  exact ⟨placedMod_setModBit hver hle hx' hres v _ _, rfl, rfl⟩

end Sys2Proof.Machine
end

section
/-! O23, O24, O25: the system commands (rules R220 to R224), the two CSR commands once for each check of theirs. -/

namespace Sys2Proof.Machine

/-- Settles O23: each of the three ends in one write to the registers; `SRST`'s is the reset register file itself. -/
theorem nopSrstErrclrResults : Obligations.NopSrstErrclrResults :=
  fun s => ⟨done_eq s, ⟨_, done_eq s.softReset, rfl, rfl⟩, done_eq (s.setRegs s.regs.clearError)⟩

namespace Csr

/-! ## Which numbers are implemented (rules R31, R49) -/

/-- Every CSR is found under its number. -/
theorem ofNumber_number (c : Csr) : ofNumber c.number = some c := by
  cases c with
  | aln i => fin_cases i <;> rfl
  | _ => rfl

theorem number_le (c : Csr) : c.number ≤ 0x16 := by
  cases c with
  | aln i => exact Nat.add_le_add_left (Nat.le_of_lt_succ i.isLt) 0x10
  | _ => decide

theorem number_ne_gap (c : Csr) : c.number ≠ 0x0F := by
  cases c with
  | aln i => exact (Nat.lt_of_lt_of_le (by decide) (Nat.le_add_right 0x10 i)).ne'
  | _ => decide

theorem ofNumber_of_unimplemented {n : Nat} (h : n = 0x0F ∨ 0x17 ≤ n) : ofNumber n = none := by
  rw [Option.eq_none_iff_forall_ne_some]
  intro c hc
  have hn := number_of_ofNumber hc
  have hle := c.number_le
  have hgap := c.number_ne_gap
  omega

/-- The numbers that rule R31's access column marks read-only. -/
theorem readOnly_ofNumber : ∀ n ∈ [0x00, 0x01, 0x02, 0x03, 0x06, 0x07, 0x08, 0x0A, 0x0D],
    (ofNumber n).any readOnly = true := by decide

/-- A CSR with a legal value may be written. -/
theorem readOnly_of_legal {v : Nat} {c : Csr} (h : c.legal v = true) : c.readOnly = false := by
  cases c with
  | ctrl | acc | ver | mask | ncw | alncnt | aln => rfl
  | id | status | err | errcmd | ecn | fmt | vinfo | size | bitcnt => contradiction

/-- A number and a value that rule R224 refuses for the value: those of a CSR that may be written. -/
theorem illegal_of_number {n v : Nat} (h : (n = 0x04 ∧ 3 < v) ∨ (n = 0x05 ∧ 255 < v) ∨
    (n = 0x09 ∧ (v = 0 ∨ 40 < v)) ∨ (n = 0x0B ∧ 7 < v) ∨ (n = 0x0C ∧ 4096 < v) ∨ (n = 0x0E ∧ 7 < v) ∨
    (0x10 ≤ n ∧ n ≤ 0x16 ∧ 255 < v)) :
    ∃ c : Csr, c.number = n ∧ c.readOnly = false ∧ c.legal v = false := by
  obtain ⟨rfl, hv⟩ | ⟨rfl, hv⟩ | ⟨rfl, hv⟩ | ⟨rfl, hv⟩ | ⟨rfl, hv⟩ | ⟨rfl, hv⟩ | ⟨hlo, hhi, hv⟩ := h
  · exact ⟨.ctrl, rfl, rfl, decide_eq_false (Nat.not_le.2 hv)⟩
  · exact ⟨.acc, rfl, rfl, decide_eq_false (Nat.not_le.2 hv)⟩
  · refine ⟨.ver, rfl, rfl, ?_⟩
    simp only [legal, Bool.and_eq_false_iff, decide_eq_false_iff_not]
    omega
  · exact ⟨.mask, rfl, rfl, decide_eq_false (Nat.not_le.2 hv)⟩
  · exact ⟨.ncw, rfl, rfl, decide_eq_false (Nat.not_le.2 hv)⟩
  · exact ⟨.alncnt, rfl, rfl, decide_eq_false (Nat.not_le.2 hv)⟩
  · exact ⟨.aln ⟨n - 0x10, by omega⟩, Nat.add_sub_of_le hlo, rfl, decide_eq_false (Nat.not_le.2 hv)⟩

end Csr

/-! ## The derived values (rules R34, R43) -/

theorem statusWord_eq_ite (r : Regs) :
    r.statusWord = if r.err = 0 then 0 else if r.ctrl.getLsbD 0 then 3 else 1 := by
  by_cases herr : r.err = 0
  · rw [if_pos herr, Regs.statusWord, Regs.irq, (faulted_eq_false_iff r).2 herr]
    rfl
  · rw [if_neg herr, Regs.statusWord, Regs.irq, (faulted_iff r).2 herr, Regs.ien]
    cases r.ctrl.getLsbD 0 <;> rfl

theorem ofNat_size_eq (r : Regs) : BitVec.ofNat 32 r.size = 17 + 4 * r.ver.setWidth 32 := by
  rw [Regs.size]
  bv_omega

/-! ## The two commands, check by check -/

theorem exec_csrrd_number (c : Csr) (s : State) :
    exec (.csrrd c.number) s = .next (s.answer .ok (c.read s.regs)) :=
  execCsrrd_of_implemented c.ofNumber_number s

theorem exec_csrrd_of_unimplemented {n : Nat} (h : n = 0x0F ∨ 0x17 ≤ n) (s : State) :
    exec (.csrrd n) s = .next (s.raised .illegalCsr) := by
  simp only [exec, execCsrrd, Csr.ofNumber_of_unimplemented h, raise_eq_raised]

theorem exec_csrwr_of_unimplemented {n : Nat} (h : n = 0x0F ∨ 0x17 ≤ n) (v : Nat) (s : State) :
    exec (.csrwr n v) s = .next (s.raised .illegalCsr) := by
  simp only [exec, execCsrwr, Csr.ofNumber_of_unimplemented h, raise_eq_raised]

theorem exec_csrwr_number_of_readOnly {c : Csr} (h : c.readOnly = true) (v : Nat) (s : State) :
    exec (.csrwr c.number v) s = .next (s.raised .illegalCsr) := by
  simp only [exec, execCsrwr, c.ofNumber_number, h, if_true, raise_eq_raised]

theorem exec_csrwr_number_of_legal {c : Csr} {v : Nat} (h : c.legal v = true) (s : State) :
    exec (.csrwr c.number v) s = .next ((s.setRegs (c.write s.regs v)).answer .ok 0) := by
  simp [exec, execCsrwr, c.ofNumber_number, Csr.readOnly_of_legal h, h]

theorem exec_csrwr_number_of_illegal {c : Csr} {v : Nat} (hro : c.readOnly = false) (h : c.legal v = false)
    (s : State) : exec (.csrwr c.number v) s = .next (s.raised .illegalValue) := by
  simp [exec, execCsrwr, c.ofNumber_number, hro, h, raise_eq_raised]

/-- Settles O24: a number is that of a CSR, which answers its value, or of none. -/
theorem csrrdResult : Obligations.CsrrdResult := by
  intro s
  have hstatus := exec_csrrd_number .status s
  have hsize := exec_csrrd_number .size s
  rw [Csr.read, statusWord_eq_ite] at hstatus
  rw [Csr.read, ofNat_size_eq] at hsize
  exact ⟨exec_csrrd_number .id s, hstatus, exec_csrrd_number .err s, exec_csrrd_number .errcmd s,
    exec_csrrd_number .ctrl s, exec_csrrd_number .acc s, exec_csrrd_number .ecn s, exec_csrrd_number .fmt s,
    exec_csrrd_number .vinfo s, exec_csrrd_number .ver s, hsize, exec_csrrd_number .mask s, exec_csrrd_number .ncw s,
    exec_csrrd_number .bitcnt s, exec_csrrd_number .alncnt s, fun i hi => exec_csrrd_number (.aln ⟨i, hi⟩) s,
    fun _ hn => exec_csrrd_of_unimplemented hn s⟩

/-- Settles O25: a write that is carried out is `Csr.write` of a legal value, and each check of the number and the value
ends the command as rule R224 orders them. -/
theorem csrwrResult : Obligations.CsrwrResult := by
  intro s v
  refine ⟨fun hv => exec_csrwr_number_of_legal (c := .ctrl) (decide_eq_true hv) s,
    fun hv => exec_csrwr_number_of_legal (c := .acc) (decide_eq_true hv) s,
    fun hlo hhi => exec_csrwr_number_of_legal (c := .ver)
      (Bool.and_eq_true_iff.2 ⟨decide_eq_true hlo, decide_eq_true hhi⟩) s,
    fun hv => exec_csrwr_number_of_legal (c := .mask) (decide_eq_true hv) s,
    fun hv => exec_csrwr_number_of_legal (c := .ncw) (decide_eq_true hv) s,
    fun hv => exec_csrwr_number_of_legal (c := .alncnt) (decide_eq_true hv) s, fun i hi hv => ?_, fun n hn => ?_,
    fun n hn => ?_⟩
  · exact ⟨_, exec_csrwr_number_of_legal (c := .aln ⟨i, hi⟩) (decide_eq_true hv) s, rfl,
      fun j _ => entry_setEntry s.regs.aln i j _ hi⟩
  · obtain hmem | hnone := hn
    · obtain ⟨c, hc, hro⟩ := (Option.any_eq_true _ _).1 (Csr.readOnly_ofNumber n hmem)
      obtain rfl := Csr.number_of_ofNumber hc
      exact exec_csrwr_number_of_readOnly hro v s
    · exact exec_csrwr_of_unimplemented hnone v s
  · obtain ⟨c, rfl, hro, hv⟩ := Csr.illegal_of_number hn
    exact exec_csrwr_number_of_illegal hro hv s

end Sys2Proof.Machine
end

section
/-! O8, O9, O11: the one way a command can raise, and that nothing but its operands and the registers beside `ERR` and
`ERRCMD` decides whether it does. -/

namespace Sys2Proof.Machine

/-! ## What a raising command leaves (rules R272, R274) -/

/-- A command that answers an error has raised it, and it is one of its own: carrying out answers `OK`. -/
theorem raised_of_error {i : Instr} {s t : State} {c : Cause} {d : Word} (h : exec i s = .next t)
    (hr : t.responses = s.responses ++ [⟨.error c, d⟩]) : c ∈ ownErrors i ∧ d = 0 ∧ t = s.raised c := by
  obtain ⟨c', hown, h'⟩ | ⟨t', h', carried⟩ := exec_cases i s
  · obtain rfl := Host.Outcome.next.inj (h.symm.trans h')
    obtain ⟨rfl, rfl⟩ : c' = c ∧ 0 = d := by simpa [State.raised] using hr
    exact ⟨hown, rfl, rfl⟩
  · obtain rfl := Host.Outcome.next.inj (h.symm.trans h')
    obtain ⟨d', hok⟩ := carried.response
    simp [hok] at hr

/-- Settles O8: the command has left `s.raised c`, which names everything that raising writes. -/
theorem raisingCommandWritesNothingElse : Obligations.RaisingCommandWritesNothingElse := by
  refine ⟨⟨rfl, rfl, rfl, rfl, rfl, rfl, rfl, rfl, fun _ => rfl⟩, fun i s t c d h hr => ?_⟩
  obtain ⟨-, rfl, rfl⟩ := raised_of_error h hr
  exact ⟨rfl, rfl, rfl, rfl, rfl, rfl⟩

/-- Settles O9: what a command answers as an error is one of its own. -/
theorem commandsRaiseOnlyTheirOwnErrors : Obligations.CommandsRaiseOnlyTheirOwnErrors :=
  fun _ _ _ _ _ h hr => (raised_of_error h hr).1

/-! ## What decides whether a command raises -/

/-- Where the outcome `R` is that `c` was raised in `s`, the outcome `R'` is that `c` was raised in `u`. -/
def RaisesAlike (s u : State) (R R' : Result) : Prop := ∀ c, R = .next (s.raised c) → R' = .next (u.raised c)

namespace RaisesAlike

theorem raise (s u : State) (c : Cause) : RaisesAlike s u (raise c s) (raise c u) := by
  intro c' h
  rw [raise_eq_raised, Host.Outcome.next.injEq] at h
  obtain rfl : c = c' := by simpa [State.raised] using congrArg State.responses h
  exact raise_eq_raised c u

/-- A command that answers `OK` has not raised. -/
theorem respond {s u v : State} {d : Word} {R' : Result} : RaisesAlike s u (respond d v) R' := by
  intro c h
  rw [respond_eq, Host.Outcome.next.injEq] at h
  simpa [State.raised] using congrArg State.responses h

/-- The same check of both states. -/
theorem ite (p : Prop) [Decidable p] {s u : State} {A A' B B' : Result} (hA : RaisesAlike s u A A')
    (hB : RaisesAlike s u B B') : RaisesAlike s u (if p then A else B) (if p then A' else B') := by
  split_ifs
  exacts [hA, hB]

end RaisesAlike

/-- What a command raises depends on neither the memories nor `ERR` and `ERRCMD`. -/
theorem exec_raisesAlike (i : Instr) (s v : State) (err : Byte) (errcmd : Word) :
    RaisesAlike s (v.setRegs { s.regs with err, errcmd })
      (exec i s) (exec i (v.setRegs { s.regs with err, errcmd })) := by
  cases i <;> simp only [exec]
  case nop | srst | errclr | gfmul | gfmac | cwwr | cwrd | maskq | rsvcnt => exact .respond
  case gfexp | gflog | rsinit | genwr | genrd | genstd | rsbyte | fmtenc | verenc | modwr | modrd | rsvq | place =>
    exact .ite _ (.raise _ _ _) .respond
  case rsrd | rsrun | rsst => exact .ite _ (.raise _ _ _) (.ite _ (.raise _ _ _) .respond)
  case csrrd n =>
    unfold execCsrrd
    cases Csr.ofNumber n with
    | none => exact .raise _ _ _
    | some c => exact .respond
  case csrwr n w =>
    unfold execCsrwr
    cases Csr.ofNumber n with
    | none => exact .raise _ _ _
    | some c => exact .ite _ (.raise _ _ _) (.ite _ .respond (.raise _ _ _))

/-- Settles O11: after raising and `ERRCLR` no register but `ERR` and `ERRCMD` has changed. -/
theorem retryFailsInTheSameWay : Obligations.RetryFailsInTheSameWay := by
  intro i s t u c d hrun h hr hclear
  obtain ⟨-, rfl, rfl⟩ := raised_of_error h hr
  rw [State.raised_of_running c hrun] at hclear
  obtain rfl := Host.Outcome.next.inj hclear
  refine ⟨_, exec_raisesAlike i s ((s.answer (.error c) 0).answer .ok 0) 0 0 c h, rfl, ?_⟩
  rw [State.raised_of_running c rfl]
  rfl

end Sys2Proof.Machine
end

section
/-! O6, O10: a step on a presented word while FAULTED (rules R275, R277). -/

namespace Sys2Proof.Machine

/-- A step on a presented word that the lock stops. -/
theorem step_of_locked {s : State} {w : Word} {rest : List HostInput} (hp : s.pending = .command w :: rest)
    (hlock : s.locks w = true) : step s = .next ({ s with pending := rest }.answer .locked 0) := by
  rw [step_of_command hp, execWord_of_locked w { s with pending := rest } hlock]

/-- Settles O6: the lock stops every such word before it is decoded. -/
theorem lockedWordChangesNothing : Obligations.LockedWordChangesNothing := by
  intro s w rest hp hfaulted h00 h01 h02 h08
  refine step_of_locked hp (eq_true_of_ne_false fun hopen => ?_)
  obtain h | h | h | h | h := (s.locks_eq_false_iff w).1 hopen <;> contradiction

/-- The commands of the four exempt opcodes (rule R275). -/
theorem exempt_cases {i : Instr} (h : lockExempt i.opcode = true) :
    i = .nop ∨ i = .srst ∨ i = .errclr ∨ ∃ n, i = .csrrd n := by
  cases i with
  | nop | srst | errclr | csrrd => simp
  | _ => contradiction

/-- `CSRRD` answers a value, or raises its one error. -/
theorem csrrd_cases (n : Nat) (s : State) : (∃ d, exec (.csrrd n) s = .next (s.answer .ok d)) ∨
    exec (.csrrd n) s = .next (s.raised .illegalCsr) := by
  cases hn : Csr.ofNumber n with
  | none => exact .inr (by simp only [exec, execCsrrd, hn, raise_eq_raised])
  | some c => exact .inl ⟨_, execCsrrd_of_implemented hn s⟩

/-- `w` lies in the opcode space of `NOP`, `SRST`, `ERRCLR` or `CSRRD`, decoding or not (rule R275). -/
def ExemptWord (w : Word) : Prop :=
  w.extractLsb' 24 8 = 0x00#8 ∨ w.extractLsb' 24 8 = 0x01#8 ∨ w.extractLsb' 24 8 = 0x02#8 ∨
    w.extractLsb' 24 8 = 0x08#8

/-- `SRST` and `ERRCLR` answer `OK` and leave no error recorded (rules R221, R222). -/
theorem step_of_clearing {s : State} {w : Word} {rest : List HostInput} (hp : s.pending = .command w :: rest)
    (hw : w = 0x01000000 ∨ w = 0x02000000) : ExemptWord w ∧ ∃ u : State, step s = .next (u.answer .ok 0) ∧
      u.responses = s.responses ∧ u.regs.err = 0 ∧ u.regs.errcmd = 0 := by
  obtain rfl | rfl := hw
  · have hexempt : ExemptWord 0x01000000 := .inr (.inl rfl)
    exact ⟨hexempt, _, stepRunsDecodedCommand s _ rest .srst hp rfl (.inr hexempt), rfl, rfl, rfl⟩
  · have hexempt : ExemptWord 0x02000000 := .inr (.inr (.inl rfl))
    exact ⟨hexempt, _, stepRunsDecodedCommand s _ rest .errclr hp rfl (.inr hexempt), rfl, rfl, rfl⟩

/-- While FAULTED, a word that is neither `SRST` nor `ERRCLR` is answered and does nothing else (rules R275, R277). -/
theorem step_of_faulted {s : State} {w : Word} {rest : List HostInput} (hfaulted : s.regs.err ≠ 0)
    (hp : s.pending = .command w :: rest) (hw : ¬ (w = 0x01000000 ∨ w = 0x02000000)) :
    ∃ taken st d, step s = .next ({ s with pending := rest, cmdWord := taken }.answer st d) ∧
      st ∈ [.ok, .locked, .error .illegalCmd, .error .illegalCsr] ∧ (st ≠ .locked → ExemptWord w) := by
  cases hlock : s.locks w with
  | true => exact ⟨s.cmdWord, .locked, 0, step_of_locked hp hlock, by simp, fun h => absurd rfl h⟩
  | false =>
    have hexempt : ExemptWord w := ((s.locks_eq_false_iff w).1 hlock).resolve_left hfaulted
    have hraised (c : Cause) : Host.Outcome.next (State.raised { s with pending := rest, cmdWord := w } c) =
        (.next (State.answer { s with pending := rest, cmdWord := w } (.error c) 0) : Result) :=
      congrArg _ (State.raised_of_faulted c hfaulted)
    cases hd : decode w with
    | none =>
      exact ⟨w, .error .illegalCmd, 0, (step_of_illegal hp hd hlock).trans (hraised _), by simp, fun _ => hexempt⟩
    | some i =>
      have hstep := stepRunsDecodedCommand s w rest i hp hd (.inr hexempt)
      have hop : lockExempt i.opcode = true := by
        rw [opcode_of_decodeFields hd]
        simpa [State.locks, (faulted_iff s.regs).2 hfaulted] using hlock
      obtain rfl | rfl | rfl | ⟨n, rfl⟩ := exempt_cases hop
      · exact ⟨w, .ok, 0, hstep, by simp, fun _ => hexempt⟩
      · exact absurd (.inl (encodeOfDecode w _ hd).2.symm) hw
      · exact absurd (.inr (encodeOfDecode w _ hd).2.symm) hw
      · obtain ⟨d, hread⟩ | hcsr := csrrd_cases n { s with pending := rest, cmdWord := w }
        · exact ⟨w, .ok, d, hstep.trans hread, by simp, fun _ => hexempt⟩
        · exact ⟨w, .error .illegalCsr, 0, hstep.trans (hcsr.trans (hraised _)), by simp, fun _ => hexempt⟩

/-- Settles O10: `SRST` and `ERRCLR` clear the error registers, and every other word is only answered. -/
theorem faultedStateIsFrozen : Obligations.FaultedStateIsFrozen := by
  intro s t w rest hfaulted hp hstep
  by_cases hw : w = 0x01000000 ∨ w = 0x02000000
  · obtain ⟨hexempt, u, h, hresponses, herr, herrcmd⟩ := step_of_clearing hp hw
    obtain rfl := Host.Outcome.next.inj (hstep.symm.trans h)
    exact ⟨⟨⟨.ok, 0⟩, by simp [hresponses], by simp, fun _ => hexempt⟩,
      fun hsrst herrclr => absurd hw (not_or.2 ⟨hsrst, herrclr⟩), fun _ => ⟨herr, herrcmd⟩⟩
  · obtain ⟨taken, st, d, h, hst, hexempt⟩ := step_of_faulted hfaulted hp hw
    obtain rfl := Host.Outcome.next.inj (hstep.symm.trans h)
    exact ⟨⟨⟨st, d⟩, rfl, hst, hexempt⟩, fun _ _ => ⟨rfl, rfl, rfl⟩, fun h => absurd h hw⟩

end Sys2Proof.Machine
end

section
/-! O15, O16, O17: what hardware reset leaves, and the reset state (rules R300, R304). -/

namespace Sys2Proof.Machine

/-! ## The register files after reset -/

theorem Regs.reset_gen (i : Nat) : entry Regs.reset.gen i = 0 := entry_replicate _ i

theorem Regs.reset_rem (i : Nat) : entry Regs.reset.rem i = 0 := entry_replicate _ i

theorem Regs.reset_aln (i : Nat) : entry Regs.reset.aln i = 0 := entry_replicate _ i

/-! ## The step of a hardware reset -/

/-- A command that the reset cuts off leaves nothing behind (rule R304). -/
theorem step_of_hardReset {s : State} {w : Word} {rest : List HostInput}
    (hp : s.pending = .hardReset :: rest ∨ s.pending = .commandCutByReset w :: rest) :
    step s = .next (State.hardReset { s with pending := rest }) :=
  hp.elim (takeInput_cons s _ rest) (takeInput_cons s _ rest)

/-- Settles O15: either input goes to `hardReset`, which puts the reset registers beside two empty memories. -/
theorem hardwareResetGivesResetValues : Obligations.HardwareResetGivesResetValues := fun _ _ _ hp =>
  ⟨_, step_of_hardReset hp, rfl, fun i _ => Regs.reset_gen i, fun i _ => Regs.reset_rem i,
    rfl, rfl, rfl, rfl, rfl, rfl, rfl, rfl, rfl, fun i _ => Regs.reset_aln i, rfl, rfl,
    rfl, rfl, rfl, rfl, Memory.read_nil, Memory.read_nil, rfl, rfl⟩

/-! ## The reset state -/

/-- Settles O16: `State.reset` holds the reset registers, whose files are 0 throughout, and two empty memories. -/
theorem resetStateAsSpecified : Obligations.ResetStateAsSpecified :=
  ⟨rfl, fun i _ => Regs.reset_gen i, fun i _ => Regs.reset_rem i, rfl, rfl, rfl, rfl, rfl, rfl, rfl, rfl, rfl,
    fun i _ => Regs.reset_aln i, rfl, rfl, Memory.read_nil, Memory.read_nil⟩

/-- Settles O17: the reset registers are legal and both memories are empty. -/
theorem invariantAtReset : Obligations.InvariantAtReset := ⟨Regs.reset_legal, rfl, rfl⟩

end Sys2Proof.Machine
end

section
/-! O13, O14: no step stops the machine, and a run answers its words one by one (rules R66, R308, R311). -/

namespace Sys2Proof.Machine

/-! ## One step of a run -/

/-- Whatever the host does next, the step that takes it ends in a next state (rule R308). -/
theorem step_next (s : State) : ∃ t, step s = .next t := by
  cases hp : s.pending with
  | nil => exact ⟨s, takeInput_nil s hp⟩
  | cons input rest =>
    cases input with
    | command w =>
      obtain ⟨t, _, ht, -⟩ := oneResponsePerCommand s w rest hp
      exact ⟨t, ht⟩
    | hardReset => exact ⟨_, step_of_hardReset (w := 0) (.inl hp)⟩
    | commandCutByReset w => exact ⟨_, step_of_hardReset (.inr hp)⟩

/-- One more step of any machine is a step and then the others. -/
theorem run_succ_of_step {M : Host.Core} {s t : M.State} (h : M.step s = .next t) (k : Nat) :
    M.run (k + 1) s = M.run k t := by
  simp only [Host.Core.run, h]

theorem coreRun_succ {s t : State} (h : step s = .next t) (k : Nat) :
    Host.Core.run core (k + 1) s = Host.Core.run core k t := run_succ_of_step (M := core) h k

/-! ## Runs -/

theorem run_nil (s : State) : run [] s = .next { s with pending := [] } := rfl

/-- A step that takes one input leaves the run of the others. -/
theorem run_cons {s t : State} {input : HostInput} {rest : List HostInput}
    (h : step { s with pending := input :: rest } = .next t) (hrest : t.pending = rest) :
    run (input :: rest) s = run rest t := by
  subst hrest
  exact coreRun_succ h _

/-- Settles O14, by induction on the number of steps. -/
theorem everyStateIsSafe : Obligations.EveryStateIsSafe := by
  refine ⟨fun s n => ?_, takeInput_nil⟩
  induction n generalizing s with
  | zero => exact ⟨s, rfl⟩
  | succ n ih =>
    obtain ⟨u, hu⟩ := step_next s
    rw [coreRun_succ hu]
    exact ih u

/-- Settles O13, by induction on the words: the first gets its response, and the others run from the state it leaves. -/
theorem runAnswersEveryWord : Obligations.RunAnswersEveryWord := by
  intro words
  induction words with
  | nil => exact fun s => ⟨_, [], run_nil s, (List.append_nil _).symm, rfl, rfl⟩
  | cons w words ih =>
    intro s
    obtain ⟨u, r, hu, hresponses, hpending, -⟩ :=
      oneResponsePerCommand { s with pending := .command w :: words.map .command } w _ rfl
    obtain ⟨t, rs, ht, hrs, hlength, hdone⟩ := ih u
    refine ⟨t, r :: rs, (run_cons hu hpending).trans ht, ?_, congrArg Nat.succ hlength, hdone⟩
    rw [hrs, hresponses, List.append_assoc, List.singleton_append]

end Sys2Proof.Machine
end
